-- ==== Sys2Proof/Word.lean ====
section
/-! DEFINITION. The value types of the machine: bytes, 16-bit words, 12-bit addresses, and the 4-bit
indexes of registers and keys (spec/00_scope.md R5, R7; spec/10_state.md R10, R11). -/

namespace Sys2Proof

/-- An 8-bit unsigned value: a general register, a timer, a memory byte (R5 REG_WIDTH, TIMER_WIDTH). -/
abbrev Byte := BitVec 8

/-- A 16-bit unsigned value: I, PC, a return address, an opcode word (R5 I_WIDTH, PC_WIDTH; R50). -/
abbrev Word := BitVec 16

/-- The 12-bit address field NNN of an instruction (R51). -/
abbrev Addr12 := BitVec 12

/-- A register number 0..15, the value of a field X or Y; every value names a register (R11, R53). -/
abbrev RegIdx := Fin 16

/-- A key code 0..15 (R18). -/
abbrev KeyIdx := Fin 16

/-- The nibble N of `DXYN`: a row count 0..15 (R53). -/
abbrev RowCount := Fin 16

/-- A framebuffer column 0..63 and a row 0..31 (R120). -/
abbrev Column := Fin 64

@[inherit_doc Column] abbrev Row := Fin 32

/-- The high byte of a word, bits 15..8 (R7, R31). -/
def hiByte (w : Word) : Byte := w.extractLsb' 8 8

/-- The low byte of a word, bits 7..0 (R7, R31). -/
def loByte (w : Word) : Byte := w.extractLsb' 0 8

end Sys2Proof
end

