-- ==== Sys2Proof/Config.lean ====
section
/-! DEFINITION. What is fixed for the machine and is no state (spec/10_state.md R22): the parameters the
source fixes (spec/00_scope.md R5), the type of the parameters it leaves open (R6), and the one free value,
the byte of the random source (spec/42_register_alu.md R102). The spec's values of the open parameters stand
in `Sys2Proof/Machine/Parameters.lean`. -/

namespace Sys2Proof

/-- MEM_SIZE: 4096 bytes of memory, addresses 0..4095 (R5). -/
def Config.memSize : Nat := 4096

/-- PC_MAX: the largest PC at which a fetch is allowed (R5, R67). -/
def Config.pcMax : Nat := 4094

/-- PROG_BASE: load address and reset PC (R5). -/
def Config.progBase : Nat := 0x200

/-- PROG_MAX_LEN: the longest program `load` accepts, 4096 − 0x200 bytes (R5, R163). -/
def Config.progMaxLen : Nat := 3584

/-- FONT_LEN: bytes of the glyph table, at addresses 0..79 (R5, R21). -/
def Config.fontLen : Nat := 80

/-- GLYPH_LEN: bytes of one glyph (R5, R112). -/
def Config.glyphLen : Nat := 5

/-- The two ways the source offers for sprite pixels beyond the 64×32 grid (R123, D1). -/
inductive SpriteEdge where
  /-- Coordinates are taken modulo 64 and 32. -/
  | wrap
  /-- A sprite bit beyond the right or bottom edge is not drawn and cannot collide. -/
  | clip
deriving DecidableEq, Repr

/-- The glyph table FONT: 80 bytes, 16 glyphs of five (R6, R21). -/
abbrev Font := Vector Byte 80

/-- The parameters the source leaves open and a model keeps as configuration fields (R6; U1, U4, U5). A
machine has one value of each, for good; a claim about every state holds for every value (log 27). -/
structure Parameters where
  /-- STACK_CAPACITY: how many return addresses the call stack holds (R15, D2). -/
  stackCapacity : Nat
  /-- FONT: what addresses 0..79 hold after reset (R21, D3). -/
  font : Font
  /-- SPRITE_EDGE: what happens to sprite pixels beyond the grid (R123, D1). -/
  spriteEdge : SpriteEdge
deriving DecidableEq, Repr

/-- FREE VALUE. The byte the random source gives to the n-th execution of `CXNN` (R102, D14, U2; log 3).
It has no body: nothing can be proved about its values, so a claim holds for every sequence of bytes. -/
opaque Config.randomByte : Nat → Byte

end Sys2Proof
end

