-- ==== Sys2Proof/Machine/Parameters.lean ====
section
/-! DEFINITION. The spec's own values of the parameters the source leaves open (spec/00_scope.md R6;
spec/92_eei_decisions.md D1 to D3). Only `State.reset` uses them: every operation takes the value from its
arguments or from the machine's configuration. -/

namespace Sys2Proof.Machine

/-- STACK_CAPACITY (R6, R15, D2). PRESUMED: the spec gives 16 and marks it as general knowledge (log 4). -/
def stackCapacity : Nat := 16

/-- SPRITE_EDGE (R6, R123, D1). DESIGN CHOICE of the spec: wrap (log 6). -/
def spriteEdge : SpriteEdge := .wrap

/-- The bytes of FONT, 16 glyphs of five, top sprite row first (R6, R21, D3). PRESUMED: the spec's default
table, which it marks as general knowledge (log 5). -/
def fontBytes : List Byte :=
  [0xF0, 0x90, 0x90, 0x90, 0xF0] ++ [0x20, 0x60, 0x20, 0x20, 0x70] ++
  [0xF0, 0x10, 0xF0, 0x80, 0xF0] ++ [0xF0, 0x10, 0xF0, 0x10, 0xF0] ++
  [0x90, 0x90, 0xF0, 0x10, 0x10] ++ [0xF0, 0x80, 0xF0, 0x10, 0xF0] ++
  [0xF0, 0x80, 0xF0, 0x90, 0xF0] ++ [0xF0, 0x10, 0x20, 0x40, 0x40] ++
  [0xF0, 0x90, 0xF0, 0x90, 0xF0] ++ [0xF0, 0x90, 0xF0, 0x10, 0xF0] ++
  [0xF0, 0x90, 0xF0, 0x90, 0x90] ++ [0xE0, 0x90, 0xE0, 0x90, 0xE0] ++
  [0xF0, 0x80, 0x80, 0x80, 0xF0] ++ [0xE0, 0x90, 0x90, 0x90, 0xE0] ++
  [0xF0, 0x80, 0xF0, 0x80, 0xF0] ++ [0xF0, 0x80, 0xF0, 0x80, 0x80]

/-- FONT, as the table of 80 bytes it is. -/
def font : Font := ⟨fontBytes.toArray, rfl⟩

/-- The spec's value of every open parameter (R6). -/
def defaultParameters : Parameters := ⟨stackCapacity, font, spriteEdge⟩

end Sys2Proof.Machine
end

