-- ==== Sys2Proof/Machine/State.lean ====
section
/-! DEFINITION. The state record of one core instance (spec/10_state.md R10 to R23), the kinds of fatal
error (spec/60_exceptions.md R140), and the state after reset (R23; spec/70_reset_and_hazards.md R160). -/

namespace Sys2Proof.Machine

/-- The contents of memory: the cells that differ from the reset contents, by rising address (R21; log 21). -/
abbrev Memory := List Host.Cell

/-- The pixels, row 0 first and column 0 first in each row; true is 1 (on), false is 0 (off) (R17, R120; log 23). -/
abbrev Framebuffer := Vector (Vector Bool 64) 32

/-- The whole state of one core instance: the eleven elements of R10, and two fields of the model's own,
`config` and `draws`, which are no state of the spec's (R22). -/
structure State where
  /-- The model's own: the parameters of this machine (R6, R22). No operation writes it (log 27). -/
  config : Parameters
  /-- `mem`, 4096 bytes (R21). -/
  mem : Memory
  /-- V0..VF (R11); VF is the only flag (R12). -/
  v : Vector Byte 16
  /-- The index register I (R13). -/
  i : Word
  /-- The program counter PC (R14). -/
  pc : Word
  /-- The call stack, its top first (R15; log 24). -/
  stack : List Word
  /-- The delay timer DT (R16). -/
  dt : Byte
  /-- The sound timer ST (R16). -/
  st : Byte
  /-- The framebuffer `fb` (R17). -/
  fb : Framebuffer
  /-- The key states, true when down (R18). -/
  key : Vector Bool 16
  /-- The key-wait condition: the register that waits, if one does (R19). -/
  wait : Option RegIdx
  /-- The redraw-needed flag (R20). -/
  dirty : Bool
  /-- The model's own: how many bytes the random source has given (R102, R22; log 3). -/
  draws : Nat
deriving DecidableEq, Repr

/-- The error kinds, exactly five (R140). A step that ends in one changes nothing (R71, R144), and the
result carries the kind and nothing more. All are the spec's own stops, none is the model's. -/
inductive Fault where
  /-- Raised by the host operation `load` alone, for more than 3584 bytes (R163). Safe: the spec's own error. -/
  | programTooLarge
  /-- Raised by `2NNN` when the stack is full (R82). Safe: the spec's own error, at the capacity of the
  configuration; that this is 16 after `State.reset` is log 4, unsafe. -/
  | stackOverflow
  /-- Raised by `00EE` when the stack is empty (R80). Safe: the spec's own error. -/
  | stackUnderflow
  /-- Raised by a step whose word is undefined (R55), whose PC is above 4094 (R67), whose data address is
  above 4095 (R34: `DXYN`, `FX33`, `FX55`, `FX65`), or whose key index is above 15 (R136: `EX9E`, `EXA1`).
  Safe: the spec's own error; that the last three have this kind is log 7. -/
  | invalidOpcode
  /-- Raised by `FX29` when VX is above 15 (R112). Safe: the spec's own error. -/
  | invalidFontIndex
deriving DecidableEq, Repr

/-- Why the model would give an instruction no meaning. No arm of `exec` uses it: all 34 are modelled. -/
inductive Refusal where
  /-- Raised by nobody: it would be the arm of an instruction not modelled yet. Safe. -/
  | notModelled (mnemonic : String)
deriving DecidableEq, Repr

/-- The state after `init()` on a fresh instance with the given parameters: every element as R23 lists it. The
font and the zeros of memory are what an unlisted address reads as, so memory lists nothing; `draws` is the
model's (log 3). -/
def State.resetWith (c : Parameters) : State where
  config := c
  mem := []
  v := Vector.replicate 16 0
  i := 0
  pc := 0x200
  stack := []
  dt := 0
  st := 0
  fb := Vector.replicate 32 (Vector.replicate 64 false)
  key := Vector.replicate 16 false
  wait := none
  dirty := false
  draws := 0

/-- The state after reset of the machine with the spec's values of the parameters (R6, R23). -/
def State.reset : State := State.resetWith defaultParameters

end Sys2Proof.Machine
end

