-- ==== Sys2Proof/Machine/Memory.lean ====
section
/-! DEFINITION. The memory primitives over the canonical list of cells (spec/20_memory.md R30, R34, R43;
log 21). FONT, on which the reset contents depend, is an argument of each (R21). -/

namespace Sys2Proof.Machine

/-- OOB_KIND, the kind of every range error (R6, R34, R67, R136, D4). DESIGN CHOICE of the spec:
InvalidOpcode (log 7). -/
def oobKind : Fault := .invalidOpcode

/-- What each address holds after reset: the font below 80, zero above (R21, R23, R160). This is what an
unlisted address of `Memory` reads as (log 21). -/
def resetByte (font : Font) (a : Nat) : Byte := if h : a < Config.fontLen then font[a]'h else 0

/-- The list form of one byte: nothing where the byte is the reset contents of its address. -/
def cellOf (font : Font) (a : Nat) (b : Byte) : Memory := if b = resetByte font a then [] else [(a, b)]

/-- `MemRead(a, 1)` (R43): the listed byte, or the reset contents. -/
def Memory.read (font : Font) : Memory → Nat → Byte
  | [], a => resetByte font a
  | (a', b) :: rest, a => if a = a' then b else Memory.read font rest a

/-- `MemWrite(a, 1, b)` (R43): a holds b, every other byte is as it was. -/
def Memory.write (font : Font) : Memory → Nat → Byte → Memory
  | [], a, b => cellOf font a b
  | (a', b') :: rest, a, b =>
    if a < a' then cellOf font a b ++ (a', b') :: rest
    else if a = a' then cellOf font a b ++ rest
    else (a', b') :: Memory.write font rest a b

/-- The bytes of a list written to rising addresses from `base` (R33). -/
def Memory.writeBytes (font : Font) : Memory → Nat → List Byte → Memory
  | m, _, [] => m
  | m, base, b :: bs => Memory.writeBytes font (Memory.write font m base b) (base + 1) bs

/-- The `len` bytes at rising addresses from `base` (R33). -/
def Memory.readBytes (font : Font) (m : Memory) (base len : Nat) : List Byte :=
  (List.range len).map fun k => Memory.read font m (base + k)

/-- The bounds rule (R34): every address base .. base + len − 1 lies in 0..4095, the sums taken as
unbounded integers; an access of no byte is always in range. -/
def inRange (base len : Nat) : Bool := len = 0 || base + len ≤ Config.memSize

/-- The canonical form: addresses strictly rising, each an address of the machine, none holding its reset
contents. Memories that hold the same bytes are then equal lists. -/
abbrev Memory.wf (font : Font) (m : Memory) : Prop :=
  (m.map Prod.fst).Pairwise (· < ·) ∧ ∀ c ∈ m, c.1 < Config.memSize ∧ c.2 ≠ resetByte font c.1

end Sys2Proof.Machine
end

