-- ==== Sys2Proof/Machine/Ops.lean ====
section
/-! DEFINITION. The named operations over the state: one write per element, the memory accesses of
instructions with their bounds check, the program counter, the call stack, and the one way a step raises a
fatal error. -/

namespace Sys2Proof.Machine

/-- What executing an instruction gives. -/
abbrev Result := Host.Outcome State Fault Refusal

/-! ### Writes of one element -/

def State.setMem (s : State) (m : Memory) : State := { s with mem := m }
def State.setV (s : State) (v : Vector Byte 16) : State := { s with v := v }
def State.setI (s : State) (w : Word) : State := { s with i := w }
def State.setPc (s : State) (w : Word) : State := { s with pc := w }
def State.setStack (s : State) (l : List Word) : State := { s with stack := l }
def State.setDt (s : State) (b : Byte) : State := { s with dt := b }
def State.setSt (s : State) (b : Byte) : State := { s with st := b }
def State.setFb (s : State) (f : Framebuffer) : State := { s with fb := f }
def State.setKey (s : State) (k : Vector Bool 16) : State := { s with key := k }
def State.setWait (s : State) (w : Option RegIdx) : State := { s with wait := w }
def State.setDirty (s : State) (b : Bool) : State := { s with dirty := b }
def State.setDraws (s : State) (n : Nat) : State := { s with draws := n }

/-! ### Fatal errors -/

/-- `raise Fatal(kind)`: THE entry of every exception (R8, R71, R144). A fatal error has no handler, vector
or saved register in the machine: the step gives the kind to the host, and the state stays what it was,
which `stateAfter` says. There is no return from it inside the machine (R145): the host resets with
`State.init`, or goes on from the unchanged state. -/
def raise (kind : Fault) (_s : State) : Result := .fault kind

/-- The state after a step that began in s: the next state, or s itself after a fatal error (R71). -/
def stateAfter (s : State) : Result → State
  | .next t => t
  | .fault _ => s
  | .refused _ => s

/-- The end of an instruction whose checks are done: its next state, or the fatal error it met. -/
def finish (s : State) : Except Fault State → Result
  | .ok t => .next t
  | .error kind => raise kind s

/-! ### General registers -/

/-- VF, register 15 (R12). -/
def VF : RegIdx := 15

/-- `V[x]` (R8, R11). -/
def State.reg (s : State) (x : RegIdx) : Byte := s.v[x.val]

/-- `V[x] <- b` (R8, R11): no register is hard-wired. -/
def State.setReg (s : State) (x : RegIdx) (b : Byte) : State := s.setV (s.v.set x.val b)

/-- V0..VX in order, X + 1 bytes (R114). -/
def State.firstRegs (s : State) (x : RegIdx) : List Byte := s.v.toList.take (x.val + 1)

/-- V0, V1, ... loaded from the bytes of a list; the registers past its end stay (R115). -/
def State.setFirstRegs (s : State) (bs : List Byte) : State :=
  s.setV (Vector.ofFn fun k => if k.val < bs.length then bs.getD k.val 0 else s.v[k.val])

/-! ### The program counter (R14, R70) -/

/-- `PC <- PC + 2`, the default. -/
def State.advance (s : State) : State := s.setPc (s.pc + 2)

/-- `PC <- PC + 4`. -/
def State.skip (s : State) : State := s.setPc (s.pc + 4)

/-- "+4 or +2": skip when the condition holds (R88). -/
def State.skipIf (s : State) (cond : Bool) : State := if cond then s.skip else s.advance

/-- `PC <- target`, unchecked: the next step's fetch checks it (R67, R88). -/
def State.jump (s : State) (target : Word) : State := s.setPc target

/-! ### The call stack (R15) -/

/-- `push(w)` on a stack of the given capacity; a full stack is StackOverflow (R82). -/
def State.push (s : State) (capacity : Nat) (w : Word) : Except Fault State :=
  if s.stack.length < capacity then .ok (s.setStack (w :: s.stack)) else .error .stackOverflow

/-- `pop()`: the top entry and the state without it; an empty stack is StackUnderflow (R80). -/
def State.pop (s : State) : Except Fault (Word × State) :=
  match s.stack with
  | [] => .error .stackUnderflow
  | w :: rest => .ok (w, s.setStack rest)

/-! ### Memory as the instructions use it (R34, R44, R116) -/

/-- `MemRead(a, 1)` (R43). -/
def State.readByte (s : State) (a : Nat) : Byte := Memory.read s.config.font s.mem a

/-- The `len` bytes from `base`, unchecked. -/
def State.readBytes (s : State) (base len : Nat) : List Byte := Memory.readBytes s.config.font s.mem base len

/-- The bytes of a list written from `base` on, unchecked. -/
def State.writeBytes (s : State) (base : Nat) (bs : List Byte) : State :=
  s.setMem (Memory.writeBytes s.config.font s.mem base bs)

/-- The memory of a state is in the canonical form of its machine (log 21). -/
abbrev State.canonical (s : State) : Prop := Memory.wf s.config.font s.mem

/-- The `len` bytes from `base`, checked as a whole before the first is read. -/
def State.loadBytes (s : State) (base len : Nat) : Except Fault (List Byte) :=
  if inRange base len then .ok (s.readBytes base len) else .error oobKind

/-- The bytes of a list stored from `base`, checked as a whole before the first is written. -/
def State.storeBytes (s : State) (base : Nat) (bs : List Byte) : Except Fault State :=
  if inRange base bs.length then .ok (s.writeBytes base bs) else .error oobKind

/-! ### The random source (R102) -/

/-- `random_byte()`: the byte of this execution, a free value, and the state that has drawn it (log 3). -/
def State.drawByte (s : State) : Byte × State := (Config.randomByte s.draws, s.setDraws (s.draws + 1))

end Sys2Proof.Machine
end

