-- ==== Sys2Proof/Machine/Operands.lean ====
section
/-! DEFINITION. The operand forms (spec/30_encoding.md R53): register values are `State.reg`, NN is a byte
as it stands; here are the address forms and the two operands that a value of VX selects. -/

namespace Sys2Proof.Machine

/-- NNN as a 16-bit address: zero-extended, unscaled, unmasked (R53, R88). -/
def addrOf (nnn : Addr12) : Word := nnn.setWidth 16

/-- V0 + NNN as a 16-bit sum, not reduced modulo 4096 (R87). -/
def offsetAddr (v0 : Byte) (nnn : Addr12) : Word := v0.setWidth 16 + addrOf nnn

/-- The base of "memory at I + k": all 16 bits of I, as an unbounded integer (R116). -/
def State.base (s : State) : Nat := s.i.toNat

/-- The key that VX selects; a value above 15 selects none and is fatal, never masked (R136). -/
def keyOperand (b : Byte) : Except Fault KeyIdx :=
  if h : b.toNat < 16 then .ok ⟨b.toNat, h⟩ else .error oobKind

/-- The state of a key (R18). -/
def State.keyDownAt (s : State) (k : KeyIdx) : Bool := s.key[k.val]

/-- The address of the glyph of digit VX, 5·VX; a value above 15 is InvalidFontIndex (R112). -/
def glyphAddr (b : Byte) : Except Fault Word :=
  if b.toNat ≤ 0xF then .ok (BitVec.ofNat 16 (Config.glyphLen * b.toNat)) else .error .invalidFontIndex

/-- The decimal digits of a byte, hundreds, tens, ones (R113). -/
def decimalDigits (b : Byte) : List Byte :=
  [BitVec.ofNat 8 (b.toNat / 100), BitVec.ofNat 8 (b.toNat / 10 % 10), BitVec.ofNat 8 (b.toNat % 10)]

end Sys2Proof.Machine
end

