-- ==== Sys2Proof/Machine/ControlFlow.lean ====
section
/-! DEFINITION. Control transfer (spec/41_control_flow.md R80 to R88). No transfer checks its target. -/

namespace Sys2Proof.Machine

/-- `00EE` RET (R80): PC is the popped value, nothing added; an empty stack is StackUnderflow. -/
def execRet (s : State) : Result :=
  match s.pop with
  | .ok (w, t) => .next (t.jump w)
  | .error kind => raise kind s

/-- `1NNN` JP nnn (R81). -/
def execJp (nnn : Addr12) (s : State) : Result := .next (s.jump (addrOf nnn))

/-- `2NNN` CALL nnn (R82): PC + 2 is pushed; a full stack is StackOverflow, and nothing is pushed (C7). -/
def execCall (nnn : Addr12) (s : State) : Result :=
  match s.push s.config.stackCapacity (s.pc + 2) with
  | .ok t => .next (t.jump (addrOf nnn))
  | .error kind => raise kind s

/-- `3XNN` SE Vx, nn (R83). -/
def execSeImm (x : RegIdx) (nn : Byte) (s : State) : Result := .next (s.skipIf (s.reg x == nn))

/-- `4XNN` SNE Vx, nn (R84). -/
def execSneImm (x : RegIdx) (nn : Byte) (s : State) : Result := .next (s.skipIf (s.reg x != nn))

/-- `5XY0` SE Vx, Vy (R85). -/
def execSeReg (x y : RegIdx) (s : State) : Result := .next (s.skipIf (s.reg x == s.reg y))

/-- `9XY0` SNE Vx, Vy (R86). -/
def execSneReg (x y : RegIdx) (s : State) : Result := .next (s.skipIf (s.reg x != s.reg y))

/-- `BNNN` JP V0, nnn (R87): the offset is V0, whatever the bits of NNN. -/
def execJpV0 (nnn : Addr12) (s : State) : Result := .next (s.jump (offsetAddr (s.reg 0) nnn))

end Sys2Proof.Machine
end

