-- ==== Sys2Proof/Machine/Flags.lean ====
section
/-! DEFINITION. The values of VF, the only flag (spec/10_state.md R12; spec/42_register_alu.md R90, R97 to
R101, R103). Collision is in `Sys2Proof/Machine/Raster.lean`. -/

namespace Sys2Proof.Machine

/-- A flag as a register value: 1 or 0. -/
def flagByte (b : Bool) : Byte := if b then 1 else 0

/-- Carry of `8XY4`: the exact sum exceeds 255 (R90, R97). -/
def carryFlag (a b : Byte) : Byte := flagByte (decide (a.toNat + b.toNat > 255))

/-- No borrow of a − b: a ≥ b, unsigned (R90, R98, R100; equality is no borrow, D19, log 17). -/
def noBorrowFlag (a b : Byte) : Byte := flagByte (decide (a.toNat ≥ b.toNat))

/-- The bit that `8XY6` shifts out: bit 0 (R99). -/
def lowBitFlag (a : Byte) : Byte := flagByte (a.getLsbD 0)

/-- The bit that `8XYE` shifts out: bit 7 (R101). -/
def highBitFlag (a : Byte) : Byte := flagByte (a.getLsbD 7)

/-- The two writes of `8XY4`, `8XY5`, `8XY7`: the result, then the flag, which stays when X = F (R103, D6; log 9). -/
def State.writeThenFlag (s : State) (x : RegIdx) (result flag : Byte) : State :=
  (s.setReg x result).setReg VF flag

/-- The two writes of `8XY6`, `8XYE`: the flag, then the result, which stays when X = F (R103, D6; log 9). -/
def State.flagThenWrite (s : State) (x : RegIdx) (result flag : Byte) : State :=
  (s.setReg VF flag).setReg x result

end Sys2Proof.Machine
end

