-- ==== Sys2Proof/Machine/Raster.lean ====
section
/-! DEFINITION. The framebuffer and the sprite rasterizer (spec/44_display.md R120, R122 to R124). -/

namespace Sys2Proof.Machine

/-- `fb[x, y]` (R8, R120). -/
def Framebuffer.pixel (f : Framebuffer) (x : Column) (y : Row) : Bool := f[y.val][x.val]

/-- `fb[x, y] <- b`. -/
def Framebuffer.setPixel (f : Framebuffer) (x : Column) (y : Row) (b : Bool) : Framebuffer :=
  f.set y.val (f[y.val].set x.val b)

/-- All 2048 pixels 0 (R121). -/
def Framebuffer.clear : Framebuffer := Vector.replicate 32 (Vector.replicate 64 false)

/-- The pixel of sprite bit (c, r) for the start (x0, y0) (R123): wrapped, or, under clipping, none beyond
an edge (D1). The sums are of unbounded integers. -/
def targetPixel (edge : SpriteEdge) (x0 y0 c r : Nat) : Option (Column × Row) :=
  match edge with
  | .wrap => some (Fin.ofNat 64 (x0 + c), Fin.ofNat 32 (y0 + r))
  | .clip => if h : x0 + c < 64 ∧ y0 + r < 32 then some (⟨x0 + c, h.1⟩, ⟨y0 + r, h.2⟩) else none

/-- The columns c of a sprite row whose bit 7 − c is 1, from the left (R120, R122). -/
def litColumns (row : Byte) : List Nat := (List.range 8).filter fun c => row.getLsbD (7 - c)

/-- The target pixels of sprite row r. -/
def rowTargets (edge : SpriteEdge) (x0 y0 r : Nat) (row : Byte) : List (Column × Row) :=
  (litColumns row).filterMap fun c => targetPixel edge x0 y0 c r

/-- The target pixels of the sprite rows from row r on, in the order of the two loops of R122. -/
def spriteTargets (edge : SpriteEdge) (x0 y0 : Nat) : Nat → List Byte → List (Column × Row)
  | _, [] => []
  | r, row :: rows => rowTargets edge x0 y0 r row ++ spriteTargets edge x0 y0 (r + 1) rows

/-- One set sprite bit (R122): the pixel is toggled, and the collision, once raised, stays; it is raised
where the pixel was 1 (R124). -/
def plot (acc : Framebuffer × Bool) (p : Column × Row) : Framebuffer × Bool :=
  (acc.1.setPixel p.1 p.2 (!acc.1.pixel p.1 p.2), acc.2 || acc.1.pixel p.1 p.2)

/-- A whole sprite: the framebuffer after it and whether any pixel collided, the collision cleared once at
the start (R122, R124). -/
def drawSprite (edge : SpriteEdge) (x0 y0 : Nat) (rows : List Byte) (f : Framebuffer) : Framebuffer × Bool :=
  (spriteTargets edge x0 y0 0 rows).foldl plot (f, false)

end Sys2Proof.Machine
end

