-- ==== Sys2Proof/Machine/Display.lean ====
section
/-! DEFINITION. Clear screen and draw sprite (spec/44_display.md R121 to R125). -/

namespace Sys2Proof.Machine

/-- `00E0` CLS (R121): `dirty` is set whether or not a pixel changes (R125). -/
def execCls (s : State) : Result := .next ((s.setFb Framebuffer.clear).setDirty true).advance

/-- The writes of a `DXYN` whose sprite rows are read: pixels, VF := collision, `dirty` (R122). -/
def State.drawn (s : State) (d : Framebuffer × Bool) : State :=
  (((s.setFb d.1).setReg VF (flagByte d.2)).setDirty true).advance

/-- `DXYN` DRW Vx, Vy, n (R122): the N rows at I, checked as a whole (none is read and nothing is checked
for N = 0); the coordinates are read before VF is written (D24; log 19). -/
def execDrw (x y : RegIdx) (n : RowCount) (s : State) : Result :=
  match s.loadBytes s.base n.val with
  | .ok rows => .next (s.drawn (drawSprite s.config.spriteEdge (s.reg x).toNat (s.reg y).toNat rows s.fb))
  | .error kind => raise kind s

end Sys2Proof.Machine
end

