-- ==== Sys2Proof/Machine/IndexMemory.lean ====
section
/-! DEFINITION. Index register and memory instructions (spec/43_index_memory.md R110 to R116). I is never
changed by an access, and every access is checked as a whole before its first byte. -/

namespace Sys2Proof.Machine

/-- `ANNN` LD I, nnn (R110). -/
def execLdI (nnn : Addr12) (s : State) : Result := .next (s.setI (addrOf nnn)).advance

/-- `FX1E` ADD I, Vx (R111): modulo 65536, no flag (D5; log 8). -/
def execAddI (x : RegIdx) (s : State) : Result := .next (s.setI (s.i + (s.reg x).setWidth 16)).advance

/-- `FX29` LD F, Vx (R112). -/
def execLdF (x : RegIdx) (s : State) : Result :=
  match glyphAddr (s.reg x) with
  | .ok a => .next (s.setI a).advance
  | .error kind => raise kind s

/-- `FX33` LD B, Vx (R113): the three digits at I, I + 1, I + 2. -/
def execLdB (x : RegIdx) (s : State) : Result :=
  match s.storeBytes s.base (decimalDigits (s.reg x)) with
  | .ok t => .next t.advance
  | .error kind => raise kind s

/-- `FX55` LD [I], Vx (R114): V0..VX at I..I + X. -/
def execStoreRegs (x : RegIdx) (s : State) : Result :=
  match s.storeBytes s.base (s.firstRegs x) with
  | .ok t => .next t.advance
  | .error kind => raise kind s

/-- `FX65` LD Vx, [I] (R115): V0..VX from I..I + X. -/
def execLoadRegs (x : RegIdx) (s : State) : Result :=
  match s.loadBytes s.base (x.val + 1) with
  | .ok bs => .next (s.setFirstRegs bs).advance
  | .error kind => raise kind s

end Sys2Proof.Machine
end

