-- ==== Sys2Proof/Machine/KeypadTimers.lean ====
section
/-! DEFINITION. Keypad and timer instructions (spec/45_keypad_timers.md R130 to R136). -/

namespace Sys2Proof.Machine

/-- `EX9E` SKP Vx (R130): skip if the key is down. -/
def execSkp (x : RegIdx) (s : State) : Result :=
  match keyOperand (s.reg x) with
  | .ok k => .next (s.skipIf (s.keyDownAt k))
  | .error kind => raise kind s

/-- `EXA1` SKNP Vx (R131): skip if the key is up. -/
def execSknp (x : RegIdx) (s : State) : Result :=
  match keyOperand (s.reg x) with
  | .ok k => .next (s.skipIf (!s.keyDownAt k))
  | .error kind => raise kind s

/-- `FX07` LD Vx, DT (R132). -/
def execLdFromDT (x : RegIdx) (s : State) : Result := .next (s.setReg x s.dt).advance

/-- `FX0A` LD Vx, K (R133): the core waits on register X and PC is held; `State.keyDown` resolves it (R148, D7; log 10). -/
def execLdKey (x : RegIdx) (s : State) : Result := .next (s.setWait (some x))

/-- `FX15` LD DT, Vx (R134). -/
def execLdDT (x : RegIdx) (s : State) : Result := .next (s.setDt (s.reg x)).advance

/-- `FX18` LD ST, Vx (R135). -/
def execLdST (x : RegIdx) (s : State) : Result := .next (s.setSt (s.reg x)).advance

end Sys2Proof.Machine
end

