-- ==== Sys2Proof/Machine/RegisterAlu.lean ====
section
/-! DEFINITION. Register ALU (spec/42_register_alu.md R90 to R104). Arithmetic is on 8-bit unsigned values
and wraps modulo 256 (R90); operands are read from s before any write (R73). -/

namespace Sys2Proof.Machine

/-- `6XNN` LD Vx, nn (R91). -/
def execLdImm (x : RegIdx) (nn : Byte) (s : State) : Result := .next (s.setReg x nn).advance

/-- `7XNN` ADD Vx, nn (R92): no flag, even when it wraps (R104). -/
def execAddImm (x : RegIdx) (nn : Byte) (s : State) : Result := .next (s.setReg x (s.reg x + nn)).advance

/-- `8XY0` LD Vx, Vy (R93). -/
def execLdReg (x y : RegIdx) (s : State) : Result := .next (s.setReg x (s.reg y)).advance

/-- `8XY1` OR Vx, Vy (R94). -/
def execOrReg (x y : RegIdx) (s : State) : Result := .next (s.setReg x (s.reg x ||| s.reg y)).advance

/-- `8XY2` AND Vx, Vy (R95). -/
def execAndReg (x y : RegIdx) (s : State) : Result := .next (s.setReg x (s.reg x &&& s.reg y)).advance

/-- `8XY3` XOR Vx, Vy (R96). -/
def execXorReg (x y : RegIdx) (s : State) : Result := .next (s.setReg x (s.reg x ^^^ s.reg y)).advance

/-- `8XY4` ADD Vx, Vy (R97): sum, then carry. -/
def execAddReg (x y : RegIdx) (s : State) : Result :=
  .next (s.writeThenFlag x (s.reg x + s.reg y) (carryFlag (s.reg x) (s.reg y))).advance

/-- `8XY5` SUB Vx, Vy (R98): VX − VY, then no borrow. -/
def execSubReg (x y : RegIdx) (s : State) : Result :=
  .next (s.writeThenFlag x (s.reg x - s.reg y) (noBorrowFlag (s.reg x) (s.reg y))).advance

/-- `8XY6` SHR Vx (R99): the bit shifted out, then VX >> 1; Y is not used. -/
def execShr (x _y : RegIdx) (s : State) : Result :=
  .next (s.flagThenWrite x (s.reg x >>> 1) (lowBitFlag (s.reg x))).advance

/-- `8XY7` SUBN Vx, Vy (R100): VY − VX, then no borrow. -/
def execSubnReg (x y : RegIdx) (s : State) : Result :=
  .next (s.writeThenFlag x (s.reg y - s.reg x) (noBorrowFlag (s.reg y) (s.reg x))).advance

/-- `8XYE` SHL Vx (R101): the bit shifted out, then VX << 1 mod 256; Y is not used. -/
def execShl (x _y : RegIdx) (s : State) : Result :=
  .next (s.flagThenWrite x (s.reg x <<< 1) (highBitFlag (s.reg x))).advance

/-- `CXNN` for a given byte r of the random source (R102). -/
def State.setMasked (s : State) (x : RegIdx) (r nn : Byte) : State := (s.setReg x (r &&& nn)).advance

/-- `CXNN` RND Vx, nn (R102): a free byte, masked (log 3). -/
def execRnd (x : RegIdx) (nn : Byte) (s : State) : Result :=
  .next (s.drawByte.2.setMasked x s.drawByte.1 nn)

end Sys2Proof.Machine
end

