-- ==== Sys2Proof/Syntax.lean ====
section
/-! DEFINITION. The 34 instructions, one constructor per row of spec/opcode_table.json, in the table's
order (spec/30_encoding.md R54). The operands have exactly the widths of the fields they come from (R51,
R53), so every term of `Instr` is an instruction of the hardware. -/

namespace Sys2Proof

/-- An instruction with its operands (R52 to R54). The constructors' names follow the mnemonics of R58;
the pattern that the source uses as the name stands beside each. -/
inductive Instr where
  /-- `00E0` CLS -/
  | cls
  /-- `00EE` RET -/
  | ret
  /-- `1NNN` JP nnn -/
  | jp (nnn : Addr12)
  /-- `2NNN` CALL nnn -/
  | call (nnn : Addr12)
  /-- `3XNN` SE Vx, nn -/
  | seImm (x : RegIdx) (nn : Byte)
  /-- `4XNN` SNE Vx, nn -/
  | sneImm (x : RegIdx) (nn : Byte)
  /-- `5XY0` SE Vx, Vy -/
  | seReg (x y : RegIdx)
  /-- `6XNN` LD Vx, nn -/
  | ldImm (x : RegIdx) (nn : Byte)
  /-- `7XNN` ADD Vx, nn -/
  | addImm (x : RegIdx) (nn : Byte)
  /-- `8XY0` LD Vx, Vy -/
  | ldReg (x y : RegIdx)
  /-- `8XY1` OR Vx, Vy -/
  | orReg (x y : RegIdx)
  /-- `8XY2` AND Vx, Vy -/
  | andReg (x y : RegIdx)
  /-- `8XY3` XOR Vx, Vy -/
  | xorReg (x y : RegIdx)
  /-- `8XY4` ADD Vx, Vy -/
  | addReg (x y : RegIdx)
  /-- `8XY5` SUB Vx, Vy -/
  | subReg (x y : RegIdx)
  /-- `8XY6` SHR Vx, Vy; Y is decoded and not used (R56) -/
  | shr (x y : RegIdx)
  /-- `8XY7` SUBN Vx, Vy -/
  | subnReg (x y : RegIdx)
  /-- `8XYE` SHL Vx, Vy; Y is decoded and not used (R56) -/
  | shl (x y : RegIdx)
  /-- `9XY0` SNE Vx, Vy -/
  | sneReg (x y : RegIdx)
  /-- `ANNN` LD I, nnn -/
  | ldI (nnn : Addr12)
  /-- `BNNN` JP V0, nnn -/
  | jpV0 (nnn : Addr12)
  /-- `CXNN` RND Vx, nn -/
  | rnd (x : RegIdx) (nn : Byte)
  /-- `DXYN` DRW Vx, Vy, n -/
  | drw (x y : RegIdx) (n : RowCount)
  /-- `EX9E` SKP Vx -/
  | skp (x : RegIdx)
  /-- `EXA1` SKNP Vx -/
  | sknp (x : RegIdx)
  /-- `FX07` LD Vx, DT -/
  | ldFromDT (x : RegIdx)
  /-- `FX0A` LD Vx, K -/
  | ldKey (x : RegIdx)
  /-- `FX15` LD DT, Vx -/
  | ldDT (x : RegIdx)
  /-- `FX18` LD ST, Vx -/
  | ldST (x : RegIdx)
  /-- `FX1E` ADD I, Vx -/
  | addI (x : RegIdx)
  /-- `FX29` LD F, Vx -/
  | ldF (x : RegIdx)
  /-- `FX33` LD B, Vx -/
  | ldB (x : RegIdx)
  /-- `FX55` LD [I], Vx -/
  | storeRegs (x : RegIdx)
  /-- `FX65` LD Vx, [I] -/
  | loadRegs (x : RegIdx)
deriving DecidableEq, Repr

end Sys2Proof
end

