-- ==== Sys2Proof/Decode.lean ====
section
/-! DEFINITION. The decoder and the encoder (spec/30_encoding.md R50 to R56). Decoding depends on the word
alone, is total, and names what it refuses. -/

namespace Sys2Proof

/-- Why bytes are not an instruction. -/
inductive DecodeError where
  /-- The word matches no row of the opcode map (R55). -/
  | undefinedEncoding (w : Word)
  /-- Fewer than the two bytes every instruction has (R50). -/
  | truncated
deriving DecidableEq, Repr

/-- The six fields of an opcode word (R51). -/
structure Fields where
  c : Fin 16
  x : RegIdx
  y : RegIdx
  n : RowCount
  nn : Byte
  nnn : Addr12
deriving DecidableEq, Repr

/-- The nibble of w at bits lo+3 .. lo. -/
def nibbleAt (w : Word) (lo : Nat) : Fin 16 := (w.extractLsb' lo 4).toFin

/-- Field extraction: all six fields, for every word (R51). -/
def fieldsOf (w : Word) : Fields where
  c := nibbleAt w 12
  x := nibbleAt w 8
  y := nibbleAt w 4
  n := nibbleAt w 0
  nn := w.extractLsb' 0 8
  nnn := w.extractLsb' 0 12

/-- Category 0: the whole NNN selects, only 0x0E0 and 0x0EE (R54, C10). -/
def decodeCat0 (f : Fields) : Option Instr :=
  if f.nnn = 0x0E0 then some .cls
  else if f.nnn = 0x0EE then some .ret
  else none

/-- Category 8: N selects (R54). -/
def decodeCat8 (f : Fields) : Option Instr :=
  match f.n.val with
  | 0x0 => some (.ldReg f.x f.y)
  | 0x1 => some (.orReg f.x f.y)
  | 0x2 => some (.andReg f.x f.y)
  | 0x3 => some (.xorReg f.x f.y)
  | 0x4 => some (.addReg f.x f.y)
  | 0x5 => some (.subReg f.x f.y)
  | 0x6 => some (.shr f.x f.y)
  | 0x7 => some (.subnReg f.x f.y)
  | 0xE => some (.shl f.x f.y)
  | _ => none

/-- Category E: NN selects (R54). -/
def decodeCatE (f : Fields) : Option Instr :=
  if f.nn = 0x9E then some (.skp f.x)
  else if f.nn = 0xA1 then some (.sknp f.x)
  else none

/-- Category F: NN selects (R54). -/
def decodeCatF (f : Fields) : Option Instr :=
  if f.nn = 0x07 then some (.ldFromDT f.x)
  else if f.nn = 0x0A then some (.ldKey f.x)
  else if f.nn = 0x15 then some (.ldDT f.x)
  else if f.nn = 0x18 then some (.ldST f.x)
  else if f.nn = 0x1E then some (.addI f.x)
  else if f.nn = 0x29 then some (.ldF f.x)
  else if f.nn = 0x33 then some (.ldB f.x)
  else if f.nn = 0x55 then some (.storeRegs f.x)
  else if f.nn = 0x65 then some (.loadRegs f.x)
  else none

/-- Dispatch on the category nibble, then in categories 0, 5, 8, 9, E and F on the secondary selector
(R54; C1 for categories 5 and 9). -/
def decodeFields (f : Fields) : Option Instr :=
  match f.c.val with
  | 0x0 => decodeCat0 f
  | 0x1 => some (.jp f.nnn)
  | 0x2 => some (.call f.nnn)
  | 0x3 => some (.seImm f.x f.nn)
  | 0x4 => some (.sneImm f.x f.nn)
  | 0x5 => if f.n = 0 then some (.seReg f.x f.y) else none
  | 0x6 => some (.ldImm f.x f.nn)
  | 0x7 => some (.addImm f.x f.nn)
  | 0x8 => decodeCat8 f
  | 0x9 => if f.n = 0 then some (.sneReg f.x f.y) else none
  | 0xA => some (.ldI f.nnn)
  | 0xB => some (.jpV0 f.nnn)
  | 0xC => some (.rnd f.x f.nn)
  | 0xD => some (.drw f.x f.y f.n)
  | 0xE => decodeCatE f
  | 0xF => decodeCatF f
  | _ => none

/-- The instruction of an opcode word, or the name of the refusal (R54, R55). -/
def decodeWord (w : Word) : Except DecodeError Instr :=
  match decodeFields (fieldsOf w) with
  | some i => .ok i
  | none => .error (.undefinedEncoding w)

/-- The opcode word of two bytes at rising addresses: big-endian, b0·256 + b1 (R31). -/
def wordOfBytes (b0 b1 : Byte) : Word := b0 ++ b1

/-- The two bytes of a word in the order of their addresses (R31). -/
def bytesOfWord (w : Word) : List Byte := [hiByte w, loByte w]

/-- Decoding of any bytes: the instruction of the first two and the bytes after it (R50). -/
def decodeBytes : List Byte → Except DecodeError (Instr × List Byte)
  | b0 :: b1 :: rest =>
    match decodeWord (wordOfBytes b0 b1) with
    | .ok i => .ok (i, rest)
    | .error e => .error e
  | [_] => .error .truncated
  | [] => .error .truncated

/-- Format A: category and address (R52). -/
def packA (c : Nat) (nnn : Addr12) : Word := BitVec.ofNat 16 (c * 4096 + nnn.toNat)

/-- Formats XI and X: category, X and a low byte that is NN or fixed (R52). -/
def packXI (c : Nat) (x : RegIdx) (nn : Byte) : Word := BitVec.ofNat 16 (c * 4096 + x.val * 256 + nn.toNat)

/-- Formats XY and XYN: category, X, Y and a low nibble that is N or fixed (R52). -/
def packXY (c : Nat) (x y : RegIdx) (n : Fin 16) : Word :=
  BitVec.ofNat 16 (c * 4096 + x.val * 256 + y.val * 16 + n.val)

/-- The opcode word of an instruction (R52, R54). -/
def encode : Instr → Word
  | .cls => 0x00E0
  | .ret => 0x00EE
  | .jp nnn => packA 0x1 nnn
  | .call nnn => packA 0x2 nnn
  | .seImm x nn => packXI 0x3 x nn
  | .sneImm x nn => packXI 0x4 x nn
  | .seReg x y => packXY 0x5 x y 0
  | .ldImm x nn => packXI 0x6 x nn
  | .addImm x nn => packXI 0x7 x nn
  | .ldReg x y => packXY 0x8 x y 0x0
  | .orReg x y => packXY 0x8 x y 0x1
  | .andReg x y => packXY 0x8 x y 0x2
  | .xorReg x y => packXY 0x8 x y 0x3
  | .addReg x y => packXY 0x8 x y 0x4
  | .subReg x y => packXY 0x8 x y 0x5
  | .shr x y => packXY 0x8 x y 0x6
  | .subnReg x y => packXY 0x8 x y 0x7
  | .shl x y => packXY 0x8 x y 0xE
  | .sneReg x y => packXY 0x9 x y 0
  | .ldI nnn => packA 0xA nnn
  | .jpV0 nnn => packA 0xB nnn
  | .rnd x nn => packXI 0xC x nn
  | .drw x y n => packXY 0xD x y n
  | .skp x => packXI 0xE x 0x9E
  | .sknp x => packXI 0xE x 0xA1
  | .ldFromDT x => packXI 0xF x 0x07
  | .ldKey x => packXI 0xF x 0x0A
  | .ldDT x => packXI 0xF x 0x15
  | .ldST x => packXI 0xF x 0x18
  | .addI x => packXI 0xF x 0x1E
  | .ldF x => packXI 0xF x 0x29
  | .ldB x => packXI 0xF x 0x33
  | .storeRegs x => packXI 0xF x 0x55
  | .loadRegs x => packXI 0xF x 0x65

/-- The bytes of an instruction in the order of their addresses (R31, R50). -/
def encodeBytes (i : Instr) : List Byte := bytesOfWord (encode i)

/-- The opcode word that a number w of nbits bits stands for; every bit above nbits is 0. -/
def tableWord (nbits w : Nat) : Word := BitVec.ofNat 16 (w % 2 ^ nbits)

/-- The instruction the decoder reads from a row of the opcode table laid out in memory order. -/
def decodeTableWord (nbits w : Nat) : Option Instr :=
  match decodeBytes (bytesOfWord (tableWord nbits w)) with
  | .ok (i, _) => some i
  | .error _ => none

end Sys2Proof
end

