-- ==== Sys2Proof/Machine/Fetch.lean ====
section
/-! DEFINITION. The fetch and decode of a step (spec/40_step_cycle.md R67 to R69), and the placing of a word
where the next fetch reads it. -/

namespace Sys2Proof.Machine

/-- The opcode word at an address: `mem[a]`·256 + `mem[a+1]` (R31, R68). -/
def State.wordAt (s : State) (a : Nat) : Word := wordOfBytes (s.readByte a) (s.readByte (a + 1))

/-- The instruction the step runs: PC is checked first (R67), then the word is fetched (R68) and decoded
(R69); both failures are InvalidOpcode (R55, D4). -/
def State.fetch (s : State) : Except Fault Instr :=
  if s.pc.toNat ≤ Config.pcMax then
    match decodeWord (s.wordAt s.pc.toNat) with
    | .ok i => .ok i
    | .error _ => .error .invalidOpcode
  else .error oobKind

/-- s with the word of a table row stored, big-endian, where the next step fetches. A state in which no
step fetches is first brought to one that does: the key-wait is ended, and a PC above 4094 becomes 0x200 (log 22). -/
def State.placeWord (s : State) (w : Word) : State :=
  let r := (if s.pc.toNat ≤ Config.pcMax then s else s.setPc (BitVec.ofNat 16 Config.progBase)).setWait none
  r.writeBytes r.pc.toNat (bytesOfWord w)

end Sys2Proof.Machine
end

