-- ==== Sys2Proof/Machine/Step.lean ====
section
/-! DEFINITION. The step operation (spec/40_step_cycle.md R65): the core's `step()`. -/

namespace Sys2Proof.Machine

/-- `step()` (R65): a blocked core changes nothing and does not even check PC (R66); otherwise one
instruction is fetched, decoded and executed. Blocked and Executed are both `next` (log 1;
`State.stepResult` tells them apart), Fatal(kind) is `fault kind`. -/
def step (s : State) : Host.Outcome State Fault Refusal :=
  match s.wait with
  | some _ => .next s
  | none =>
    match s.fetch with
    | .ok i => exec i s
    | .error kind => raise kind s

/-- s with the word of a table row where the next step fetches it (log 22). -/
def State.withFetchWord (s : State) (nbits w : Nat) : State := s.placeWord (tableWord nbits w)

end Sys2Proof.Machine
end

