-- ==== Sys2Proof/Machine/Operations.lean ====
section
/-! DEFINITION. The operations of the host and the results it sees (spec/00_scope.md R4;
spec/60_exceptions.md R140 to R152, R157, R158; spec/70_reset_and_hazards.md R160 to R163). Each is one
atomic transition between two steps; a schedule of the host is a list of them (log 2). -/

namespace Sys2Proof.Machine

/-- What `step()` returns (R65). -/
inductive StepResult where
  /-- An instruction was executed (R72). -/
  | executed
  /-- The core waits for a key; nothing changed (R66). -/
  | blocked
  /-- A fatal error; nothing changed (R71). -/
  | fatal (kind : Fault)
  /-- The model's own, for an instruction without a meaning; no step gives it. -/
  | refused (r : Refusal)
deriving DecidableEq, Repr

/-- The result of `step()` (R65, R66, R72). -/
def State.stepResult (s : State) : StepResult :=
  match s.wait with
  | some _ => .blocked
  | none =>
    match step s with
    | .next _ => .executed
    | .fault kind => .fatal kind
    | .refused r => .refused r

/-- The numbers a rendering gives the results (R142, D11; log 13). -/
def StepResult.code : StepResult → Option Nat
  | .executed => some 0
  | .blocked => some 1
  | .fatal _ => some 2
  | .refused _ => none

/-- The numbers a rendering gives the kinds (R142, D11; log 13). -/
def Fault.code : Fault → Nat
  | .programTooLarge => 0
  | .stackOverflow => 1
  | .stackUnderflow => 2
  | .invalidOpcode => 3
  | .invalidFontIndex => 4

/-- `init()` (R160): the reset state of the same machine. The count of draws is no state of the spec's and
goes on, so that no byte of the random source is tied to an earlier one (log 3). -/
def State.init (s : State) : State := (State.resetWith s.config).setDraws s.draws

/-- `load(bytes)` (R162, R163): the bytes at 0x200 and up and nothing else, or ProgramTooLarge. -/
def State.loadProgram (s : State) (bytes : List Byte) : Except Fault State :=
  if bytes.length ≤ Config.progMaxLen then .ok (s.writeBytes Config.progBase bytes)
  else .error .programTooLarge

/-- `tick_timers()` (R150): each timer goes one down, to a floor of 0. -/
def tickDown (b : Byte) : Byte := if b.toNat > 0 then b - 1 else b

@[inherit_doc tickDown] def State.tickTimers (s : State) : State :=
  (s.setDt (tickDown s.dt)).setSt (tickDown s.st)

/-- `key[c] <- down` (R148, R149). -/
def State.setKeyAt (s : State) (c : KeyIdx) (down : Bool) : State := s.setKey (s.key.set c.val down)

/-- `key_down(c)` (R148): the key is down; if a register waits, it gets the code, PC moves past the `FX0A`
and the wait ends (D7, D16; log 10, log 15). -/
def State.keyDown (s : State) (c : KeyIdx) : State :=
  match s.wait with
  | none => s.setKeyAt c true
  | some x => (((s.setKeyAt c true).setReg x (BitVec.ofNat 8 c.val)).advance).setWait none

/-- `key_up(c)` (R149): the key is up and nothing else changes. -/
def State.keyUp (s : State) (c : KeyIdx) : State := s.setKeyAt c false

/-- `clear_dirty()` (R152). -/
def State.clearDirty (s : State) : State := s.setDirty false

/-- `framebuffer()` (R152): the 2048 pixels, pixel (x, y) at index y·64 + x (R120). -/
def State.framebuffer (s : State) : Vector Bool (32 * 64) := s.fb.flatten

/-- `dirty()` (R152). -/
def State.isDirty (s : State) : Bool := s.dirty

/-- `is_sound_active()` (R151): ST > 0 at the moment of the call (C2). -/
def State.isSoundActive (s : State) : Bool := decide (s.st.toNat > 0)

/-- The operations that can change the state (R4). Key codes above 15 do not exist (D16; log 15). -/
inductive Operation where
  | init
  | load (bytes : List Byte)
  | step
  | tickTimers
  | keyDown (c : KeyIdx)
  | keyUp (c : KeyIdx)
  | clearDirty
deriving DecidableEq, Repr

/-- What the caller of an operation gets back (R4, R158). -/
inductive Reply where
  /-- The operation returns nothing. -/
  | nothing
  /-- `load` returns Ok. -/
  | ok
  /-- `load` returns an error (ProgramTooLarge). -/
  | loadFailed (kind : Fault)
  /-- What `step()` returns. -/
  | stepped (r : StepResult)
deriving DecidableEq, Repr

/-- The state after an operation. A failed `load` and a fatal step leave it as it was (R163, R71). -/
def Operation.apply : Operation → State → State
  | .init, s => s.init
  | .load bytes, s =>
    match s.loadProgram bytes with
    | .ok t => t
    | .error _ => s
  | .step, s => stateAfter s (Machine.step s)
  | .tickTimers, s => s.tickTimers
  | .keyDown c, s => s.keyDown c
  | .keyUp c, s => s.keyUp c
  | .clearDirty, s => s.clearDirty

/-- The reply to an operation. -/
def Operation.reply : Operation → State → Reply
  | .load bytes, s =>
    match s.loadProgram bytes with
    | .ok _ => .ok
    | .error kind => .loadFailed kind
  | .step, s => .stepped s.stepResult
  | .init, _ => .nothing
  | .tickTimers, _ => .nothing
  | .keyDown _, _ => .nothing
  | .keyUp _, _ => .nothing
  | .clearDirty, _ => .nothing

/-- The state after the operations of a schedule, in order: every interleaving of the host is one (R157, D23). -/
def runSchedule (ops : List Operation) (s : State) : State := ops.foldl (fun t op => op.apply t) s

end Sys2Proof.Machine
end

