-- ==== Sys2Proof/Safety.lean ====
section
/-! DEFINITION. The terms in which claims about the machine are made: the invariant of every run, what an
instruction leaves alone, which instructions may write which element (spec/10_state.md R25), and the end of
a run (spec/70_reset_and_hazards.md R169). -/

namespace Sys2Proof

/-- An instruction that may write `mem` (R25, R33). -/
def Instr.writesMemory : Instr → Bool
  | .ldB _ => true
  | .storeRegs _ => true
  | _ => false

/-- An instruction that may write I (R13, R25). -/
def Instr.writesIndex : Instr → Bool
  | .ldI _ => true
  | .addI _ => true
  | .ldF _ => true
  | _ => false

/-- An instruction that may write the stack (R15, R25). -/
def Instr.writesStack : Instr → Bool
  | .ret => true
  | .call _ => true
  | _ => false

/-- An instruction that may write the framebuffer and the redraw flag (R17, R20, R25). -/
def Instr.writesScreen : Instr → Bool
  | .cls => true
  | .drw _ _ _ => true
  | _ => false

/-- An instruction that has VF as its flag output (R12). -/
def Instr.writesFlag : Instr → Bool
  | .addReg _ _ => true
  | .subReg _ _ => true
  | .shr _ _ => true
  | .subnReg _ _ => true
  | .shl _ _ => true
  | .drw _ _ _ => true
  | _ => false

/-- An instruction that has register z as an ordinary destination (R11, R25). -/
def Instr.hasDestination (z : RegIdx) : Instr → Bool
  | .ldImm x _ => z == x
  | .addImm x _ => z == x
  | .ldReg x _ => z == x
  | .orReg x _ => z == x
  | .andReg x _ => z == x
  | .xorReg x _ => z == x
  | .addReg x _ => z == x
  | .subReg x _ => z == x
  | .shr x _ => z == x
  | .subnReg x _ => z == x
  | .shl x _ => z == x
  | .rnd x _ => z == x
  | .ldFromDT x => z == x
  | .loadRegs x => z.val ≤ x.val
  | _ => false

end Sys2Proof

namespace Sys2Proof.Machine

/-- What holds between any two operations of a run: memory is canonical (log 21), PC is at most 0x10FE
(R14), the stack holds at most STACK_CAPACITY return addresses (R15), each of them 2..4096 (R82), and a
waiting core's PC is the address of a fetched `FX0A`, at most 4094 (R133, R148). -/
structure State.Inv (s : State) : Prop where
  memory : s.canonical
  pcBound : s.pc.toNat ≤ 0x10FE
  stackBound : s.stack.length ≤ s.config.stackCapacity
  returnAddresses : ∀ w ∈ s.stack, 2 ≤ w.toNat ∧ w.toNat ≤ 4096
  waitingPc : s.wait.isSome → s.pc.toNat ≤ Config.pcMax

/-- Every byte of memory reads in t as in s. -/
def SameMemory (s t : State) : Prop := ∀ a, t.readByte a = s.readByte a

/-- Every general register reads in t as in s. -/
def SameRegs (s t : State) : Prop := ∀ z, t.reg z = s.reg z

/-- Every general register but x reads in t as in s. -/
def SameRegsBut (x : RegIdx) (s t : State) : Prop := ∀ z, z ≠ x → t.reg z = s.reg z

/-- Every general register but x and VF reads in t as in s. -/
def SameRegsButFlag (x : RegIdx) (s t : State) : Prop := ∀ z, z ≠ x → z ≠ VF → t.reg z = s.reg z

/-- The keys, the key-wait and the configuration are in t as in s, and no byte was drawn from the random source. -/
def SameInputs (s t : State) : Prop :=
  t.key = s.key ∧ t.wait = s.wait ∧ t.draws = s.draws ∧ t.config = s.config

/-- The stack, the timers and what `SameInputs` lists are in t as in s. -/
def SameControl (s t : State) : Prop :=
  t.stack = s.stack ∧ t.dt = s.dt ∧ t.st = s.st ∧ SameInputs s t

/-- The pixels and the redraw flag are in t as in s. -/
def SameScreen (s t : State) : Prop := t.fb = s.fb ∧ t.dirty = s.dirty

/-- Everything but the general registers and PC is in t as in s: I, memory, stack, timers, keys, key-wait,
draws, configuration and screen. -/
def OnlyRegsAndPc (s t : State) : Prop :=
  t.i = s.i ∧ SameMemory s t ∧ SameControl s t ∧ SameScreen s t

/-- Everything but PC is in t as in s. -/
def OnlyPc (s t : State) : Prop := SameRegs s t ∧ OnlyRegsAndPc s t

/-- The one check of each instruction, where it fails: the kind that is raised (R141, R143). Sums are of
unbounded integers (R34, R116). -/
def State.instrFault (s : State) : Instr → Option Fault
  | .cls => none
  | .ret => if s.stack.length = 0 then some .stackUnderflow else none
  | .jp _ => none
  | .call _ => if s.config.stackCapacity ≤ s.stack.length then some .stackOverflow else none
  | .seImm _ _ => none
  | .sneImm _ _ => none
  | .seReg _ _ => none
  | .ldImm _ _ => none
  | .addImm _ _ => none
  | .ldReg _ _ => none
  | .orReg _ _ => none
  | .andReg _ _ => none
  | .xorReg _ _ => none
  | .addReg _ _ => none
  | .subReg _ _ => none
  | .shr _ _ => none
  | .subnReg _ _ => none
  | .shl _ _ => none
  | .sneReg _ _ => none
  | .ldI _ => none
  | .jpV0 _ => none
  | .rnd _ _ => none
  | .drw _ _ n => if 0 < n.val ∧ 4095 < s.i.toNat + n.val - 1 then some .invalidOpcode else none
  | .skp x => if 15 < (s.reg x).toNat then some .invalidOpcode else none
  | .sknp x => if 15 < (s.reg x).toNat then some .invalidOpcode else none
  | .ldFromDT _ => none
  | .ldKey _ => none
  | .ldDT _ => none
  | .ldST _ => none
  | .addI _ => none
  | .ldF x => if 0xF < (s.reg x).toNat then some .invalidFontIndex else none
  | .ldB _ => if 4095 < s.i.toNat + 2 then some .invalidOpcode else none
  | .storeRegs x => if 4095 < s.i.toNat + x.val then some .invalidOpcode else none
  | .loadRegs x => if 4095 < s.i.toNat + x.val then some .invalidOpcode else none

/-- PC after an instruction that completes (R70): the default +2, +4 for a taken skip, the target of a
transfer, and held by `FX0A`. -/
def State.pcAfter (s : State) : Instr → Nat
  | .cls => s.pc.toNat + 2
  | .ret => (s.stack.headD 0).toNat
  | .jp nnn => nnn.toNat
  | .call nnn => nnn.toNat
  | .seImm x nn => if s.reg x = nn then s.pc.toNat + 4 else s.pc.toNat + 2
  | .sneImm x nn => if s.reg x ≠ nn then s.pc.toNat + 4 else s.pc.toNat + 2
  | .seReg x y => if s.reg x = s.reg y then s.pc.toNat + 4 else s.pc.toNat + 2
  | .ldImm _ _ => s.pc.toNat + 2
  | .addImm _ _ => s.pc.toNat + 2
  | .ldReg _ _ => s.pc.toNat + 2
  | .orReg _ _ => s.pc.toNat + 2
  | .andReg _ _ => s.pc.toNat + 2
  | .xorReg _ _ => s.pc.toNat + 2
  | .addReg _ _ => s.pc.toNat + 2
  | .subReg _ _ => s.pc.toNat + 2
  | .shr _ _ => s.pc.toNat + 2
  | .subnReg _ _ => s.pc.toNat + 2
  | .shl _ _ => s.pc.toNat + 2
  | .sneReg x y => if s.reg x ≠ s.reg y then s.pc.toNat + 4 else s.pc.toNat + 2
  | .ldI _ => s.pc.toNat + 2
  | .jpV0 nnn => (s.reg 0).toNat + nnn.toNat
  | .rnd _ _ => s.pc.toNat + 2
  | .drw _ _ _ => s.pc.toNat + 2
  | .skp x => if s.key.toList.getD (s.reg x).toNat false then s.pc.toNat + 4 else s.pc.toNat + 2
  | .sknp x => if s.key.toList.getD (s.reg x).toNat false then s.pc.toNat + 2 else s.pc.toNat + 4
  | .ldFromDT _ => s.pc.toNat + 2
  | .ldKey _ => s.pc.toNat
  | .ldDT _ => s.pc.toNat + 2
  | .ldST _ => s.pc.toNat + 2
  | .addI _ => s.pc.toNat + 2
  | .ldF _ => s.pc.toNat + 2
  | .ldB _ => s.pc.toNat + 2
  | .storeRegs _ => s.pc.toNat + 2
  | .loadRegs _ => s.pc.toNat + 2

/-- Sprite bit (c, r) of a sprite drawn at (x0, y0) lands on pixel (px, py): modulo 64 and 32 under
wrap-around, and under clipping only where it lies on the grid (R123; spec/92_eei_decisions.md D1, log 6). -/
def landsOn (edge : SpriteEdge) (x0 y0 c r : Nat) (px : Column) (py : Row) : Prop :=
  match edge with
  | .wrap => px.val = (x0 + c) % 64 ∧ py.val = (y0 + r) % 32
  | .clip => px.val = x0 + c ∧ py.val = y0 + r

/-- Whether some set bit of the sprite whose row bytes start at `base` lands on pixel (px, py), for a sprite
of n rows drawn at (x0, y0) (R122, R123). -/
def State.spriteCovers (s : State) (base x0 y0 n : Nat) (px : Column) (py : Row) : Prop :=
  ∃ r < n, ∃ c < 8, (s.readByte (base + r)).getLsbD (7 - c) = true ∧
    landsOn s.config.spriteEdge x0 y0 c r px py

/-- A number is the opcode word of an instruction (R51, R54). -/
def DecodesTo (w : Nat) (i : Instr) : Prop := decodeWord (BitVec.ofNat 16 w) = .ok i

/-- The run of a program has ended by the spec's convention: the core is Running, PC = a, and the word at a
is `1NNN` with NNN = a (R169, D25; log 20). -/
def State.ended (s : State) : Prop :=
  s.wait = none ∧ s.pc.toNat ≤ Config.pcMax ∧
    (s.wordAt s.pc.toNat).toNat = 0x1000 + s.pc.toNat ∧ s.pc.toNat < 0x1000

end Sys2Proof.Machine
end

