-- ==== Sys2Proof/Certificates/Slice0/Obligations.lean ====
section
/-! DEFINITION. The statements for the provers, from the numbered rules of spec/. An instruction's statement
says its encoding, its effect, where it faults, and what it leaves alone; `stated` and `derived`, the cited
rules and the decisions a statement rests on stand in OBLIGATIONS.json and in the docstrings. -/

open Sys2Proof Sys2Proof.Machine

/-! ### Encoding and decoding -/

/-- Decode and encode agree for every instruction and every operand, as a word and as bytes in memory order
followed by anything (R50 to R54). -/
def Obligations.DecodeOfEncode : Prop :=
  ∀ (i : Instr) (rest : List Byte),
    decodeWord (encode i) = .ok i ∧ decodeBytes (encodeBytes i ++ rest) = .ok (i, rest)

/-- No two words are the same instruction: what decodes is the encoding of its instruction (R54, R56; Y of
`8XY6` and `8XYE` is kept as an operand). -/
def Obligations.EncodeOfDecode : Prop :=
  ∀ (w : Word) (i : Instr), decodeWord w = .ok i → encode i = w

/-- R54: a word is a defined instruction if and only if `w AND mask = match` for one row of the opcode map, the
rows are mutually exclusive, and the instruction decoded is the one of that row. -/
def Obligations.DefinedIffOneRowMatches : Prop :=
  ∀ w : Word,
    ((∃ i, decodeWord w = .ok i) ↔ ∃ r ∈ opcodeRows, w &&& r.mask = r.value) ∧
    (∀ r ∈ opcodeRows, ∀ r' ∈ opcodeRows, w &&& r.mask = r.value → w &&& r'.mask = r'.value → r = r') ∧
    (∀ i, decodeWord w = .ok i → i.row ∈ opcodeRows ∧ w &&& i.row.mask = i.row.value)

/-- R55: the invalid words are exactly those of its items (a) to (e), and a Running core that fetches one
raises InvalidOpcode and changes nothing. -/
def Obligations.InvalidWordsRaiseInvalidOpcode : Prop :=
  (∀ w : Word, decodeWord w = .error (.undefinedEncoding w) ↔
    (w.toNat / 4096 = 0 ∧ w.toNat % 4096 ≠ 0x0E0 ∧ w.toNat % 4096 ≠ 0x0EE) ∨
    (w.toNat / 4096 = 5 ∧ w.toNat % 16 ≠ 0) ∨ (w.toNat / 4096 = 9 ∧ w.toNat % 16 ≠ 0) ∨
    (w.toNat / 4096 = 8 ∧ w.toNat % 16 ∈ [8, 9, 0xA, 0xB, 0xC, 0xD, 0xF]) ∨
    (w.toNat / 4096 = 0xE ∧ w.toNat % 256 ∉ [0x9E, 0xA1]) ∨
    (w.toNat / 4096 = 0xF ∧ w.toNat % 256 ∉ [0x07, 0x0A, 0x15, 0x18, 0x1E, 0x29, 0x33, 0x55, 0x65])) ∧
  (∀ (w : Word) (e : DecodeError), decodeWord w = .error e → e = .undefinedEncoding w) ∧
  (∀ s : State, s.wait = none → s.pc.toNat ≤ 4094 →
    decodeWord (s.wordAt s.pc.toNat) = .error (.undefinedEncoding (s.wordAt s.pc.toNat)) →
    step s = .fault .invalidOpcode ∧ Operation.step.apply s = s)

/-- R51: the six fields of every word, how they overlap, and what they are in the two fetched bytes. -/
def Obligations.FieldsOfEveryWord : Prop :=
  (∀ w : Word,
    (fieldsOf w).c.val = w.toNat / 4096 ∧ (fieldsOf w).x.val = w.toNat / 256 % 16 ∧
    (fieldsOf w).y.val = w.toNat / 16 % 16 ∧ (fieldsOf w).n.val = w.toNat % 16 ∧
    (fieldsOf w).nn.toNat = w.toNat % 256 ∧ (fieldsOf w).nnn.toNat = w.toNat % 4096 ∧
    (fieldsOf w).nn.toNat = (fieldsOf w).y.val * 16 + (fieldsOf w).n.val ∧
    (fieldsOf w).nnn.toNat = (fieldsOf w).x.val * 256 + (fieldsOf w).nn.toNat) ∧
  (∀ b0 b1 : Byte,
    (fieldsOf (wordOfBytes b0 b1)).c.val = b0.toNat / 16 ∧ (fieldsOf (wordOfBytes b0 b1)).x.val = b0.toNat % 16 ∧
    (fieldsOf (wordOfBytes b0 b1)).y.val = b1.toNat / 16 ∧ (fieldsOf (wordOfBytes b0 b1)).n.val = b1.toNat % 16 ∧
    (fieldsOf (wordOfBytes b0 b1)).nn = b1 ∧
    (fieldsOf (wordOfBytes b0 b1)).nnn.toNat = b0.toNat % 16 * 256 + b1.toNat)

/-- Sanity: words written out from the spec's encodings decode to their instructions (95_test_vectors.md
section 2.1). -/
def Obligations.SampleWordsDecode : Prop :=
  DecodesTo 0x00EE .ret ∧ DecodesTo 0xBFFF (.jpV0 0xFFF) ∧ DecodesTo 0x602A (.ldImm 0 0x2A) ∧
  DecodesTo 0x8AB4 (.addReg 0xA 0xB) ∧ DecodesTo 0xD12F (.drw 1 2 0xF) ∧ DecodesTo 0xF165 (.loadRegs 1)

/-! ### The step -/

/-- The fetched word is `mem[PC]`·256 + `mem[PC+1]` (R31, R68): big-endian at any address. -/
def Obligations.FetchIsBigEndian : Prop :=
  ∀ (s : State) (a : Nat), (s.wordAt a).toNat = (s.readByte a).toNat * 256 + (s.readByte (a + 1)).toNat

/-- A STEP RUNS THE DECODED INSTRUCTION (R65, R69): a Running core with PC at most 4094 whose word decodes to i
does what `exec` does with i, and nothing around it. -/
def Obligations.StepRunsDecodedInstruction : Prop :=
  ∀ (s : State) (i : Instr), s.wait = none → s.pc.toNat ≤ 4094 →
    decodeWord (s.wordAt s.pc.toNat) = .ok i → step s = exec i s

/-- R66: a blocked core does not fetch or check anything, changes nothing, and returns Blocked; only a
`key_down` or an `init` ends the wait. -/
def Obligations.BlockedStepChangesNothing : Prop :=
  ∀ (s : State) (x : RegIdx), s.wait = some x →
    step s = .next s ∧ s.stepResult = .blocked ∧ Operation.step.apply s = s ∧
    (∀ op : Operation, op ≠ .init → (∀ c, op ≠ .keyDown c) → (op.apply s).wait = some x)

/-- A Running core with PC above 4094 raises a fatal error, whatever memory holds, and PC keeps its value
(R67); the kind InvalidOpcode is the spec's decision D4 (log 7). -/
def Obligations.PcOutOfRangeIsFatal : Prop :=
  ∀ s : State, s.wait = none → 4094 < s.pc.toNat →
    step s = .fault .invalidOpcode ∧ s.stepResult = .fatal .invalidOpcode ∧ Operation.step.apply s = s

/-- Every instruction answers a next state unless its one check fails, and then it raises exactly that
check's kind (R141, R143); the kinds of the range checks are the spec's decision D4 (log 7). -/
def Obligations.CompletesUnlessItsCheckFails : Prop :=
  ∀ (i : Instr) (s : State),
    (s.instrFault i = none → ∃ t, exec i s = .next t) ∧
    (∀ kind, exec i s = .fault kind ↔ s.instrFault i = some kind)

/-- Every fatal step has one of the causes of R141, in the order of R143, and each cause is fatal; the kinds
of the range checks are the spec's decision D4 (log 7). -/
def Obligations.CausesOfFatalSteps : Prop :=
  ∀ (s : State) (kind : Fault), step s = .fault kind ↔
    s.wait = none ∧
      ((4094 < s.pc.toNat ∧ kind = .invalidOpcode) ∨
       (s.pc.toNat ≤ 4094 ∧ (∀ i, decodeWord (s.wordAt s.pc.toNat) ≠ .ok i) ∧ kind = .invalidOpcode) ∨
       (s.pc.toNat ≤ 4094 ∧ ∃ i, decodeWord (s.wordAt s.pc.toNat) = .ok i ∧ s.instrFault i = some kind))

/-- R140: the kinds are exactly five; no step raises ProgramTooLarge, which `load` alone returns, and `load`
returns no other kind; no step is refused. -/
def Obligations.KindsOfStepAndLoad : Prop :=
  (∀ kind : Fault, kind ∈ [.programTooLarge, .stackOverflow, .stackUnderflow, .invalidOpcode, .invalidFontIndex]) ∧
  (∀ (s : State) (r : Refusal), step s ≠ .refused r ∧ s.stepResult ≠ .refused r) ∧
  (∀ s : State, step s ≠ .fault .programTooLarge) ∧
  (∀ (s : State) (bytes : List Byte) (kind : Fault), s.loadProgram bytes = .error kind → kind = .programTooLarge)

/-- After a fatal step the state is what it was, and every further step, any number of them, repeats the
fault (R71, R146). That nothing latches the error is the spec's decision D10 (log 12). -/
def Obligations.FatalStepRepeats : Prop :=
  ∀ (s : State) (kind : Fault) (k : Nat), step s = .fault kind →
    runSchedule (List.replicate k .step) s = s ∧
    Operation.step.reply (runSchedule (List.replicate k .step) s) = .stepped (.fatal kind)

/-! ### Control transfer -/

/-- R80: `00EE` pops into PC, adds nothing, and changes nothing else; on an empty stack it raises
StackUnderflow. -/
def Obligations.ReturnPopsIntoPc : Prop :=
  DecodesTo 0x00EE .ret ∧
  (∀ (s : State) (w : Word) (rest : List Word), s.stack = w :: rest →
    ∃ t, exec .ret s = .next t ∧ t.pc = w ∧ t.stack = rest ∧ SameRegs s t ∧ t.i = s.i ∧ SameMemory s t ∧
      t.dt = s.dt ∧ t.st = s.st ∧ SameInputs s t ∧ SameScreen s t) ∧
  (∀ s : State, s.stack = [] → exec .ret s = .fault .stackUnderflow)

/-- R81: `1NNN` sets PC to NNN, always completes, and changes nothing else. -/
def Obligations.JumpSetsPc : Prop :=
  ∀ (nnn : Addr12) (s : State), DecodesTo (0x1000 + nnn.toNat) (.jp nnn) ∧
    ∃ t, exec (.jp nnn) s = .next t ∧ t.pc.toNat = nnn.toNat ∧ OnlyPc s t

/-- R82: `2NNN` pushes PC + 2 and sets PC to NNN; on a full stack it raises StackOverflow. The capacity is the
configuration's STACK_CAPACITY, whatever its value (log 27). -/
def Obligations.CallPushesReturnAddress : Prop :=
  ∀ (nnn : Addr12) (s : State), DecodesTo (0x2000 + nnn.toNat) (.call nnn) ∧
    (s.stack.length < s.config.stackCapacity → s.pc.toNat ≤ 4094 →
      ∃ t r, exec (.call nnn) s = .next t ∧ t.pc.toNat = nnn.toNat ∧ t.stack = r :: s.stack ∧
        r.toNat = s.pc.toNat + 2 ∧ SameRegs s t ∧ t.i = s.i ∧ SameMemory s t ∧
        t.dt = s.dt ∧ t.st = s.st ∧ SameInputs s t ∧ SameScreen s t) ∧
    (s.stack.length = s.config.stackCapacity → exec (.call nnn) s = .fault .stackOverflow)

/-- R83, R84: the skips on an immediate, exact complements of each other. -/
def Obligations.SkipOnImmediate : Prop :=
  ∀ (x : RegIdx) (nn : Byte) (s : State), s.pc.toNat ≤ 4094 →
    DecodesTo (0x3000 + x.val * 256 + nn.toNat) (.seImm x nn) ∧
    DecodesTo (0x4000 + x.val * 256 + nn.toNat) (.sneImm x nn) ∧
    (∃ t, exec (.seImm x nn) s = .next t ∧ OnlyPc s t ∧
      t.pc.toNat = if s.reg x = nn then s.pc.toNat + 4 else s.pc.toNat + 2) ∧
    (∃ t, exec (.sneImm x nn) s = .next t ∧ OnlyPc s t ∧
      t.pc.toNat = if s.reg x ≠ nn then s.pc.toNat + 4 else s.pc.toNat + 2)

/-- R85, R86: the skips on two registers, with a low nibble of 0; with another the word is invalid. -/
def Obligations.SkipOnRegisters : Prop :=
  ∀ (x y : RegIdx) (s : State), s.pc.toNat ≤ 4094 →
    DecodesTo (0x5000 + x.val * 256 + y.val * 16) (.seReg x y) ∧
    DecodesTo (0x9000 + x.val * 256 + y.val * 16) (.sneReg x y) ∧
    (∀ n : Fin 16, n ≠ 0 → ∀ i, ¬ DecodesTo (0x5000 + x.val * 256 + y.val * 16 + n.val) i ∧
      ¬ DecodesTo (0x9000 + x.val * 256 + y.val * 16 + n.val) i) ∧
    (∃ t, exec (.seReg x y) s = .next t ∧ OnlyPc s t ∧
      t.pc.toNat = if s.reg x = s.reg y then s.pc.toNat + 4 else s.pc.toNat + 2) ∧
    (∃ t, exec (.sneReg x y) s = .next t ∧ OnlyPc s t ∧
      t.pc.toNat = if s.reg x ≠ s.reg y then s.pc.toNat + 4 else s.pc.toNat + 2)

/-- R87: `BNNN` sets PC to V0 + NNN, a sum that never leaves 16 bits and is not reduced modulo 4096. -/
def Obligations.JumpWithOffset : Prop :=
  ∀ (nnn : Addr12) (s : State), DecodesTo (0xB000 + nnn.toNat) (.jpV0 nnn) ∧
    ∃ t, exec (.jpV0 nnn) s = .next t ∧ t.pc.toNat = (s.reg 0).toNat + nnn.toNat ∧ OnlyPc s t

/-- A `2NNN` and then a `00EE` at NNN: two steps that leave PC at the call site + 2 and everything else as it
was (R80, R82; 95_test_vectors.md T3). -/
def Obligations.CallThenReturnSteps : Prop :=
  ∀ (s : State) (nnn : Addr12), s.wait = none → s.pc.toNat ≤ 4094 →
    s.stack.length < s.config.stackCapacity → nnn.toNat ≤ 4094 → (s.wordAt s.pc.toNat).toNat = 0x2000 + nnn.toNat →
    (s.wordAt nnn.toNat).toNat = 0x00EE →
    ∃ t, step s = .next t ∧ step t = .next (s.setPc (s.pc + 2)) ∧ t.stack.length = s.stack.length + 1

/-- The word after a skip, taken or not, is not read: but for `DXYN` and `FX65`, a step depends on memory only
through the two bytes at PC (R68, R88). -/
def Obligations.StepReadsOnlyTheFetchedBytes : Prop :=
  ∀ (s : State) (m : Memory) (i : Instr) (t : State), s.wait = none →
    (s.setMem m).readByte s.pc.toNat = s.readByte s.pc.toNat →
    (s.setMem m).readByte (s.pc.toNat + 1) = s.readByte (s.pc.toNat + 1) →
    s.fetch = .ok i → (∀ x y n, i ≠ .drw x y n) → (∀ x, i ≠ .loadRegs x) → step s = .next t →
    ∃ t', step (s.setMem m) = .next t' ∧ t'.setMem t.mem = t

/-! ### Register ALU -/

/-- R91, R92: load and add an immediate; the sum wraps modulo 256 and VF is written only as a destination. -/
def Obligations.LoadAndAddImmediate : Prop :=
  ∀ (x : RegIdx) (nn : Byte) (s : State),
    DecodesTo (0x6000 + x.val * 256 + nn.toNat) (.ldImm x nn) ∧
    DecodesTo (0x7000 + x.val * 256 + nn.toNat) (.addImm x nn) ∧
    (∃ t, exec (.ldImm x nn) s = .next t ∧ t.reg x = nn ∧ t.pc = s.pc + 2 ∧
      SameRegsBut x s t ∧ OnlyRegsAndPc s t) ∧
    (∃ t, exec (.addImm x nn) s = .next t ∧ (t.reg x).toNat = ((s.reg x).toNat + nn.toNat) % 256 ∧
      t.pc = s.pc + 2 ∧ SameRegsBut x s t ∧ OnlyRegsAndPc s t)

/-- R93 to R96: copy, OR, AND, XOR; VF is written only as a destination. -/
def Obligations.CopyAndLogic : Prop :=
  ∀ (x y : RegIdx) (s : State),
    DecodesTo (0x8000 + x.val * 256 + y.val * 16) (.ldReg x y) ∧
    DecodesTo (0x8001 + x.val * 256 + y.val * 16) (.orReg x y) ∧
    DecodesTo (0x8002 + x.val * 256 + y.val * 16) (.andReg x y) ∧
    DecodesTo (0x8003 + x.val * 256 + y.val * 16) (.xorReg x y) ∧
    (∃ t, exec (.ldReg x y) s = .next t ∧ t.reg x = s.reg y ∧ t.pc = s.pc + 2 ∧
      SameRegsBut x s t ∧ OnlyRegsAndPc s t) ∧
    (∃ t, exec (.orReg x y) s = .next t ∧ t.reg x = s.reg x ||| s.reg y ∧ t.pc = s.pc + 2 ∧
      SameRegsBut x s t ∧ OnlyRegsAndPc s t) ∧
    (∃ t, exec (.andReg x y) s = .next t ∧ t.reg x = s.reg x &&& s.reg y ∧ t.pc = s.pc + 2 ∧
      SameRegsBut x s t ∧ OnlyRegsAndPc s t) ∧
    (∃ t, exec (.xorReg x y) s = .next t ∧ t.reg x = s.reg x ^^^ s.reg y ∧ t.pc = s.pc + 2 ∧
      SameRegsBut x s t ∧ OnlyRegsAndPc s t)

/-- `8XY4` (R97): VX is the sum modulo 256 and VF the carry. That VF ends as the carry when X = F is the spec's
decision D6 (log 9). -/
def Obligations.AddWithCarry : Prop :=
  ∀ (x y : RegIdx) (s : State), DecodesTo (0x8004 + x.val * 256 + y.val * 16) (.addReg x y) ∧
    ∃ t, exec (.addReg x y) s = .next t ∧
      (t.reg VF).toNat = (if (s.reg x).toNat + (s.reg y).toNat > 255 then 1 else 0) ∧
      (x ≠ VF → (t.reg x).toNat = ((s.reg x).toNat + (s.reg y).toNat) % 256) ∧
      t.pc = s.pc + 2 ∧ SameRegsButFlag x s t ∧ OnlyRegsAndPc s t

/-- `8XY5` and `8XY7` (R98, R100): the difference modulo 256, and VF = 1 when there is no borrow. That
equality is no borrow is D19 (log 17); that VF ends as the flag when X = F is D6 (log 9). -/
def Obligations.SubtractWithNoBorrow : Prop :=
  ∀ (x y : RegIdx) (s : State),
    DecodesTo (0x8005 + x.val * 256 + y.val * 16) (.subReg x y) ∧
    DecodesTo (0x8007 + x.val * 256 + y.val * 16) (.subnReg x y) ∧
    (∃ t, exec (.subReg x y) s = .next t ∧
      (t.reg VF).toNat = (if (s.reg x).toNat ≥ (s.reg y).toNat then 1 else 0) ∧
      (x ≠ VF → ((t.reg x).toNat : Int) = ((s.reg x).toNat - (s.reg y).toNat : Int) % 256) ∧
      t.pc = s.pc + 2 ∧ SameRegsButFlag x s t ∧ OnlyRegsAndPc s t) ∧
    (∃ t, exec (.subnReg x y) s = .next t ∧
      (t.reg VF).toNat = (if (s.reg y).toNat ≥ (s.reg x).toNat then 1 else 0) ∧
      (x ≠ VF → ((t.reg x).toNat : Int) = ((s.reg y).toNat - (s.reg x).toNat : Int) % 256) ∧
      t.pc = s.pc + 2 ∧ SameRegsButFlag x s t ∧ OnlyRegsAndPc s t)

/-- `8XY6` and `8XYE` (R99, R101): VX shifted by one, VF the bit shifted out, for any Y. That VX, not the
flag, stays when X = F is the spec's decision D6 (log 9). -/
def Obligations.ShiftsByOne : Prop :=
  ∀ (x y : RegIdx) (s : State),
    DecodesTo (0x8006 + x.val * 256 + y.val * 16) (.shr x y) ∧
    DecodesTo (0x800E + x.val * 256 + y.val * 16) (.shl x y) ∧
    (∃ t, exec (.shr x y) s = .next t ∧ (t.reg x).toNat = (s.reg x).toNat / 2 ∧
      (x ≠ VF → (t.reg VF).toNat = (s.reg x).toNat % 2) ∧
      t.pc = s.pc + 2 ∧ SameRegsButFlag x s t ∧ OnlyRegsAndPc s t) ∧
    (∃ t, exec (.shl x y) s = .next t ∧ (t.reg x).toNat = 2 * (s.reg x).toNat % 256 ∧
      (x ≠ VF → (t.reg VF).toNat = (s.reg x).toNat / 128) ∧
      t.pc = s.pc + 2 ∧ SameRegsButFlag x s t ∧ OnlyRegsAndPc s t)

/-- `CXNN` (R102): some byte of the random source, masked with NN; the result has no bit that NN lacks. Which
byte is a free value (D14, log 3): the effect is that of `State.setMasked`, stated here for EVERY byte r. -/
def Obligations.RandomByteMasked : Prop :=
  (∀ (x : RegIdx) (nn : Byte) (s : State), DecodesTo (0xC000 + x.val * 256 + nn.toNat) (.rnd x nn) ∧
    ∃ t r, exec (.rnd x nn) s = .next t ∧ t = (s.setDraws (s.draws + 1)).setMasked x r nn ∧
      t.reg x &&& ~~~nn = 0 ∧ (t.reg x).toNat ≤ nn.toNat) ∧
  (∀ (x : RegIdx) (nn r : Byte) (s : State),
    (s.setMasked x r nn).reg x = r &&& nn ∧ (s.setMasked x r nn).pc = s.pc + 2 ∧
    SameRegsBut x s (s.setMasked x r nn) ∧ OnlyRegsAndPc s (s.setMasked x r nn))

/-! ### Index register and memory -/

/-- R110: `ANNN` sets I to NNN, zero-extended. -/
def Obligations.LoadIndex : Prop :=
  ∀ (nnn : Addr12) (s : State), DecodesTo (0xA000 + nnn.toNat) (.ldI nnn) ∧
    ∃ t, exec (.ldI nnn) s = .next t ∧ t.i.toNat = nnn.toNat ∧ t.pc = s.pc + 2 ∧
      SameRegs s t ∧ SameMemory s t ∧ SameControl s t ∧ SameScreen s t

/-- `FX1E` (R111): I + VX, no flag. That the sum wraps modulo 65536 is the spec's decision D5 (log 8). -/
def Obligations.AddToIndex : Prop :=
  ∀ (x : RegIdx) (s : State), DecodesTo (0xF01E + x.val * 256) (.addI x) ∧
    ∃ t, exec (.addI x) s = .next t ∧ t.i.toNat = (s.i.toNat + (s.reg x).toNat) % 65536 ∧
      t.pc = s.pc + 2 ∧ SameRegs s t ∧ SameMemory s t ∧ SameControl s t ∧ SameScreen s t

/-- R112: `FX29` sets I to 5·VX for a digit 0..15, whatever memory holds, and raises InvalidFontIndex for any
larger VX. -/
def Obligations.GlyphAddress : Prop :=
  ∀ (x : RegIdx) (s : State), DecodesTo (0xF029 + x.val * 256) (.ldF x) ∧
    ((s.reg x).toNat ≤ 0xF → ∃ t, exec (.ldF x) s = .next t ∧ t.i.toNat = 5 * (s.reg x).toNat ∧
      t.pc = s.pc + 2 ∧ SameRegs s t ∧ SameMemory s t ∧ SameControl s t ∧ SameScreen s t) ∧
    (0xF < (s.reg x).toNat → exec (.ldF x) s = .fault .invalidFontIndex)

/-- `FX33` (R113): the decimal digits of VX at I, I + 1, I + 2; every other byte, I and all else stay. The
range check before the first write and its kind are the spec's decisions D22 and D4 (log 18, log 7). -/
def Obligations.StoreDecimalDigits : Prop :=
  ∀ (x : RegIdx) (s : State), DecodesTo (0xF033 + x.val * 256) (.ldB x) ∧
    (s.canonical → s.base + 2 ≤ 4095 → ∃ t, exec (.ldB x) s = .next t ∧
      (t.readByte s.base).toNat = (s.reg x).toNat / 100 ∧
      (t.readByte (s.base + 1)).toNat = (s.reg x).toNat / 10 % 10 ∧
      (t.readByte (s.base + 2)).toNat = (s.reg x).toNat % 10 ∧
      (∀ a, (a < s.base ∨ s.base + 2 < a) → t.readByte a = s.readByte a) ∧
      t.i = s.i ∧ t.pc = s.pc + 2 ∧ SameRegs s t ∧ SameControl s t ∧ SameScreen s t) ∧
    (4095 < s.base + 2 → exec (.ldB x) s = .fault .invalidOpcode)

/-- `FX55` (R114): V0..VX at I..I + X; every other byte, I and all else stay. The range check before the
first write and its kind are the spec's decisions D22 and D4 (log 18, log 7). -/
def Obligations.StoreRegisters : Prop :=
  ∀ (x : RegIdx) (s : State), DecodesTo (0xF055 + x.val * 256) (.storeRegs x) ∧
    (s.canonical → s.base + x.val ≤ 4095 → ∃ t, exec (.storeRegs x) s = .next t ∧
      (∀ k : RegIdx, k ≤ x → t.readByte (s.base + k.val) = s.reg k) ∧
      (∀ a, (a < s.base ∨ s.base + x.val < a) → t.readByte a = s.readByte a) ∧
      t.i = s.i ∧ t.pc = s.pc + 2 ∧ SameRegs s t ∧ SameControl s t ∧ SameScreen s t) ∧
    (4095 < s.base + x.val → exec (.storeRegs x) s = .fault .invalidOpcode)

/-- `FX65` (R115): V0..VX from I..I + X; the registers above X, I, memory and all else stay. The range check
before the first load and its kind are the spec's decisions D22 and D4 (log 18, log 7). -/
def Obligations.LoadRegisters : Prop :=
  ∀ (x : RegIdx) (s : State), DecodesTo (0xF065 + x.val * 256) (.loadRegs x) ∧
    (s.base + x.val ≤ 4095 → ∃ t, exec (.loadRegs x) s = .next t ∧
      (∀ k : RegIdx, k ≤ x → t.reg k = s.readByte (s.base + k.val)) ∧
      (∀ k : RegIdx, x < k → t.reg k = s.reg k) ∧ t.pc = s.pc + 2 ∧ OnlyRegsAndPc s t) ∧
    (4095 < s.base + x.val → exec (.loadRegs x) s = .fault .invalidOpcode)

/-- `FX55` and later `FX65` with the same X and I, whatever the registers became in between: the values read
back are the values written (R114, R115; 95_test_vectors.md T8). -/
def Obligations.StoreThenLoadReadsBack : Prop :=
  ∀ (x : RegIdx) (s t u : State), s.canonical → exec (.storeRegs x) s = .next t →
    u.mem = t.mem → u.config = t.config → u.i = t.i →
    ∃ w, exec (.loadRegs x) u = .next w ∧ (∀ k : RegIdx, k ≤ x → w.reg k = s.reg k) ∧ w.i = s.i

/-- Stores are seen by the very next fetch (R41): an `FX55` that stores V0 and V1 over the word after it makes
the next step fetch V0·256 + V1. -/
def Obligations.StoreSeenByNextFetch : Prop :=
  ∀ (s : State) (x : RegIdx), s.canonical → s.wait = none → s.pc.toNat + 2 + x.val ≤ 4095 →
    decodeWord (s.wordAt s.pc.toNat) = .ok (.storeRegs x) → 1 ≤ x.val → s.i.toNat = s.pc.toNat + 2 →
    ∃ t, step s = .next t ∧ t.pc.toNat = s.pc.toNat + 2 ∧
      (t.wordAt t.pc.toNat).toNat = (s.reg 0).toNat * 256 + (s.reg 1).toNat

/-! ### Framebuffer and sprites -/

/-- `00E0` (R121): every pixel 0; VF and all else stay. That `dirty` is set whether or not a pixel changes is
the spec's decision D9 (log 11). -/
def Obligations.ClearScreen : Prop :=
  DecodesTo 0x00E0 .cls ∧
  ∀ s : State, ∃ t, exec .cls s = .next t ∧ (∀ x y, t.fb.pixel x y = false) ∧ t.dirty = true ∧
    t.pc = s.pc + 2 ∧ SameRegs s t ∧ t.i = s.i ∧ SameMemory s t ∧ SameControl s t

/-- `DXYN` (R122 to R125): every pixel covered by a set sprite bit is toggled and no other, VF is 1 exactly
when a covered pixel was 1, `dirty` is set, and all else stays. It holds for both values of SPRITE_EDGE, which
the spec's decision D1 states (log 6, log 27). That X = F and Y = F use the old VF is D24 (log 19), the range check and its kind are D22 and D4 (log 18, log 7),
`dirty` is D9 (log 11). -/
def Obligations.DrawXorsTheSprite : Prop :=
  ∀ (x y : RegIdx) (n : RowCount) (s : State),
    DecodesTo (0xD000 + x.val * 256 + y.val * 16 + n.val) (.drw x y n) ∧
    ((n.val = 0 ∨ s.base + n.val - 1 ≤ 4095) → ∃ t, exec (.drw x y n) s = .next t ∧
      (∀ px py, (s.spriteCovers s.base (s.reg x).toNat (s.reg y).toNat n.val px py →
          t.fb.pixel px py = !s.fb.pixel px py) ∧
        (¬ s.spriteCovers s.base (s.reg x).toNat (s.reg y).toNat n.val px py →
          t.fb.pixel px py = s.fb.pixel px py)) ∧
      ((∃ px py, s.spriteCovers s.base (s.reg x).toNat (s.reg y).toNat n.val px py ∧
          s.fb.pixel px py = true) → t.reg VF = 1) ∧
      ((∀ px py, s.spriteCovers s.base (s.reg x).toNat (s.reg y).toNat n.val px py →
          s.fb.pixel px py = false) → t.reg VF = 0) ∧
      t.dirty = true ∧ t.pc = s.pc + 2 ∧ SameRegsBut VF s t ∧ t.i = s.i ∧ SameMemory s t ∧ SameControl s t) ∧
    (0 < n.val → 4095 < s.base + n.val - 1 → exec (.drw x y n) s = .fault .invalidOpcode)

/-- Drawing the same sprite twice at the same coordinates restores the framebuffer (R126); the coordinates
are the same when neither register is VF, which the first draw writes. On a clear framebuffer the first draw
gives VF = 0, and the second gives 1 exactly when the sprite covers a pixel, which under the wrap-around of D1
(log 6) is exactly when it has a set bit. -/
def Obligations.DrawingTwiceRestores : Prop :=
  ∀ (x y : RegIdx) (n : RowCount) (s t : State), x ≠ VF → y ≠ VF → exec (.drw x y n) s = .next t →
    ∃ u, exec (.drw x y n) t = .next u ∧ u.fb = s.fb ∧
      ((∀ px py, s.fb.pixel px py = false) → t.reg VF = 0 ∧
        (u.reg VF = 1 ↔ ∃ px py, s.spriteCovers s.base (s.reg x).toNat (s.reg y).toNat n.val px py) ∧
        (s.config.spriteEdge = .wrap → (u.reg VF = 1 ↔ ∃ r < n.val, s.readByte (s.base + r) ≠ 0)))

/-! ### Keypad and timers -/

/-- `EX9E` and `EXA1` (R130, R131, R136): skip if the key that VX selects is down, or up; a VX above 15 is
fatal and is not masked. The kind InvalidOpcode is the spec's decision D4 (log 7). -/
def Obligations.SkipOnKey : Prop :=
  ∀ (x : RegIdx) (s : State), s.pc.toNat ≤ 4094 →
    DecodesTo (0xE09E + x.val * 256) (.skp x) ∧ DecodesTo (0xE0A1 + x.val * 256) (.sknp x) ∧
    (∀ k : KeyIdx, k.val = (s.reg x).toNat →
      (∃ t, exec (.skp x) s = .next t ∧ OnlyPc s t ∧
        t.pc.toNat = if s.key[k.val] = true then s.pc.toNat + 4 else s.pc.toNat + 2) ∧
      (∃ t, exec (.sknp x) s = .next t ∧ OnlyPc s t ∧
        t.pc.toNat = if s.key[k.val] = false then s.pc.toNat + 4 else s.pc.toNat + 2)) ∧
    (15 < (s.reg x).toNat →
      exec (.skp x) s = .fault .invalidOpcode ∧ exec (.sknp x) s = .fault .invalidOpcode)

/-- R132, R134, R135: `FX07` reads DT, `FX15` writes DT, `FX18` writes ST; nothing else but PC changes. -/
def Obligations.TimerInstructions : Prop :=
  ∀ (x : RegIdx) (s : State),
    DecodesTo (0xF007 + x.val * 256) (.ldFromDT x) ∧ DecodesTo (0xF015 + x.val * 256) (.ldDT x) ∧
    DecodesTo (0xF018 + x.val * 256) (.ldST x) ∧
    (∃ t, exec (.ldFromDT x) s = .next t ∧ t.reg x = s.dt ∧ t.pc = s.pc + 2 ∧
      SameRegsBut x s t ∧ OnlyRegsAndPc s t) ∧
    (∃ t, exec (.ldDT x) s = .next t ∧ t.dt = s.reg x ∧ t.pc = s.pc + 2 ∧ SameRegs s t ∧ t.i = s.i ∧
      SameMemory s t ∧ t.stack = s.stack ∧ t.st = s.st ∧ SameInputs s t ∧ SameScreen s t) ∧
    (∃ t, exec (.ldST x) s = .next t ∧ t.st = s.reg x ∧ t.pc = s.pc + 2 ∧ SameRegs s t ∧ t.i = s.i ∧
      SameMemory s t ∧ t.stack = s.stack ∧ t.dt = s.dt ∧ SameInputs s t ∧ SameScreen s t)

/-- `FX0A` (R133): the core waits on register X, whether or not a key is down, PC is held, and nothing else
changes; the executing step returns Executed and every further one Blocked. The held PC and the result
Executed are the spec's decisions D7 and D8 (log 10). -/
def Obligations.WaitForKey : Prop :=
  ∀ (x : RegIdx) (s : State), DecodesTo (0xF00A + x.val * 256) (.ldKey x) ∧
    (∃ t, exec (.ldKey x) s = .next t ∧ t.wait = some x ∧ t.pc = s.pc ∧ SameRegs s t ∧ t.i = s.i ∧
      SameMemory s t ∧ t.stack = s.stack ∧ t.dt = s.dt ∧ t.st = s.st ∧ t.key = s.key ∧ t.draws = s.draws ∧
      t.config = s.config ∧ SameScreen s t) ∧
    (s.wait = none → s.pc.toNat ≤ 4094 → decodeWord (s.wordAt s.pc.toNat) = .ok (.ldKey x) →
      s.stepResult = .executed ∧ (Operation.step.apply s).stepResult = .blocked)

/-- `key_down(c)` (R148): the key is down; a waiting core gets the code in its register, PC + 2 and its wait
ended, whichever key it is and whether or not it was down; a Running core is not touched otherwise. The
PC + 2 and the repeat are the spec's decisions D7 and D16 (log 10, log 15). -/
def Obligations.KeyDownEvent : Prop :=
  ∀ (c : KeyIdx) (s : State),
    (∀ k : KeyIdx, (s.keyDown c).key[k.val] = if k = c then true else s.key[k.val]) ∧
    (s.wait = none → s.keyDown c = s.setKey (s.keyDown c).key) ∧
    (∀ x, s.wait = some x → ((s.keyDown c).reg x).toNat = c.val ∧ (s.keyDown c).pc = s.pc + 2 ∧
      (s.keyDown c).wait = none ∧ SameRegsBut x s (s.keyDown c) ∧
      s.keyDown c = (((s.setKey (s.keyDown c).key).setV (s.keyDown c).v).setPc (s.pc + 2)).setWait none)

/-- R149: `key_up(c)` makes the key up and changes nothing else, the key-wait included. -/
def Obligations.KeyUpEvent : Prop :=
  ∀ (c : KeyIdx) (s : State),
    (∀ k : KeyIdx, (s.keyUp c).key[k.val] = if k = c then false else s.key[k.val]) ∧
    s.keyUp c = s.setKey (s.keyUp c).key

/-- A waiting core stays blocked, its registers, I, PC, stack and pixels untouched, through every schedule
of the host without a `key_down` and an `init` (R66, R149, R156). That the host may do all this while the core
waits is the spec's decision D18 (log 16). -/
def Obligations.WaitLastsUntilKeyDown : Prop :=
  ∀ (ops : List Operation) (s : State) (x : RegIdx), s.wait = some x → .init ∉ ops →
    (∀ c, .keyDown c ∉ ops) →
    (runSchedule ops s).wait = some x ∧ (runSchedule ops s).pc = s.pc ∧ SameRegs s (runSchedule ops s) ∧
    (runSchedule ops s).i = s.i ∧ (runSchedule ops s).stack = s.stack ∧ (runSchedule ops s).fb = s.fb

/-- k calls of `tick_timers()` take each timer down by k, to a floor of 0, and change nothing else; the sound
is active until as many ticks as ST held have passed (R150, R151). That a tick works in every state is the
spec's decision D18 (log 16). -/
def Obligations.TicksCountDownToZero : Prop :=
  ∀ (k : Nat) (s : State),
    ((runSchedule (List.replicate k .tickTimers) s).dt).toNat = s.dt.toNat - k ∧
    ((runSchedule (List.replicate k .tickTimers) s).st).toNat = s.st.toNat - k ∧
    ((runSchedule (List.replicate k .tickTimers) s).isSoundActive = true ↔ k < s.st.toNat) ∧
    ((runSchedule (List.replicate k .tickTimers) s).setDt s.dt).setSt s.st = s

/-- R151: `is_sound_active()` is true exactly when ST > 0 at the moment of the call; after an `FX18` that is
until as many ticks as the value written. -/
def Obligations.SoundIsActiveWhileStPositive : Prop :=
  (∀ s : State, s.isSoundActive = true ↔ s.st.toNat > 0) ∧
  (∀ (x : RegIdx) (s t : State) (k : Nat), exec (.ldST x) s = .next t →
    ((runSchedule (List.replicate k .tickTimers) t).isSoundActive = true ↔ k < (s.reg x).toNat))

/-- R152: `clear_dirty()` clears the redraw flag and nothing else, `dirty()` and `framebuffer()` read what the
state holds, the pixels row by row with pixel (x, y) at index y·64 + x (R120), and of all operations and steps only
`clear_dirty()` and `init()` take the flag from true to false. -/
def Obligations.RenderInterface : Prop :=
  (∀ s : State, s.clearDirty = s.setDirty false ∧ s.isDirty = s.dirty ∧
    ∀ (x : Column) (y : Row) (k : Fin (32 * 64)), k.val = y.val * 64 + x.val →
      s.framebuffer[k.val] = s.fb.pixel x y) ∧
  (∀ (s : State) (op : Operation), s.dirty = true → op ≠ .clearDirty → op ≠ .init → (op.apply s).dirty = true)

/-! ### Whole-machine rules -/

/-- The access matrix (R25), for the elements that are not registers: an instruction writes memory, I, the
stack, a timer, the screen or the key-wait only if its row says so, and no instruction writes a key (R13, R15
to R20, R33). That every `00E0` and `DXYN` that completes sets `dirty` is the spec's decision D9 (log 11). The
model's own count of draws changes only by `CXNN` (log 3), and its configuration never (log 27). -/
def Obligations.AccessMatrix : Prop :=
  ∀ (i : Instr) (s t : State), exec i s = .next t →
    (i.writesMemory = false → t.mem = s.mem) ∧ (i.writesIndex = false → t.i = s.i) ∧
    (i.writesStack = false → t.stack = s.stack) ∧
    (i.writesScreen = false → t.fb = s.fb ∧ t.dirty = s.dirty) ∧ (i.writesScreen = true → t.dirty = true) ∧
    ((∀ x, i ≠ .ldDT x) → t.dt = s.dt) ∧ ((∀ x, i ≠ .ldST x) → t.st = s.st) ∧ t.key = s.key ∧
    ((∀ x, i ≠ .ldKey x) → t.wait = s.wait) ∧ ((∀ x nn, i ≠ .rnd x nn) → t.draws = s.draws) ∧
    t.config = s.config

/-- A register changes only as the destination of an instruction, or as VF by one of the flag-producing
instructions of R12; so `7XNN`, the logic instructions and `FX1E` leave VF alone (R11, R12, R104). -/
def Obligations.RegistersChangeOnlyAsDestinations : Prop :=
  ∀ (i : Instr) (s t : State) (z : RegIdx), exec i s = .next t → i.hasDestination z = false →
    (z = VF → i.writesFlag = false) → t.reg z = s.reg z

/-- PC after every instruction that completes, as an integer and never reduced modulo 4096 or 65536 (R14, R70);
PC held by `FX0A` is the spec's decision D7 (log 10). -/
def Obligations.PcAfterEveryInstruction : Prop :=
  ∀ (i : Instr) (s t : State), s.pc.toNat ≤ 4094 → exec i s = .next t → t.pc.toNat = s.pcAfter i

/-- A program that has ended by the convention of R169 (the spec's decision D25, log 20) is at a fixed point:
every step answers the same state, any number of times. -/
def Obligations.EndedIsFixedPoint : Prop :=
  ∀ (s : State) (k : Nat), s.ended → step s = .next s ∧ runSchedule (List.replicate k .step) s = s

/-! ### The invariant -/

/-- The state after reset meets the invariant: canonical memory (a form of the model's, log 21), PC at most
0x10FE, at most STACK_CAPACITY return addresses of 2..4096, PC at most 4094 if it waits. -/
def Obligations.ResetMeetsInvariant : Prop := State.reset.Inv

/-- EVERY STEP KEEPS THE INVARIANT: memory stays canonical, PC stays at most 0x10FE, the stack at most
STACK_CAPACITY return addresses of 2..4096, and a waiting core's PC at most 4094 (R14, R15, R82, R133). That a waiting core
keeps PC is the spec's decision D7 (log 10). -/
def Obligations.StepKeepsInvariant : Prop :=
  ∀ s t : State, s.Inv → step s = .next t → t.Inv

/-- EVERY SCHEDULE OF THE HOST KEEPS THE INVARIANT, whatever it interleaves with the steps (R157). That all of
it is legal in every state is the spec's decision D18 (log 16), the PC of a waiting core is D7 (log 10). -/
def Obligations.SchedulesKeepInvariant : Prop :=
  ∀ (ops : List Operation) (s : State), s.Inv → (runSchedule ops s).Inv

/-! ### Reset and load -/

/-- The state after reset, element by element (R21, R23, R160, R161), for every value of the open parameters, so
for every FONT, and `State.reset` is that of the spec's values (D1 to D3; log 4, log 5, log 6). `wait` and
`dirty` are the spec's decision D9 (log 11). -/
def Obligations.ResetValues : Prop :=
  State.reset = State.resetWith ⟨stackCapacity, font, spriteEdge⟩ ∧
  ∀ c : Parameters,
    (State.resetWith c).pc.toNat = 0x200 ∧ (State.resetWith c).i = 0 ∧ (∀ z, (State.resetWith c).reg z = 0) ∧
    (State.resetWith c).stack = [] ∧ (State.resetWith c).dt = 0 ∧ (State.resetWith c).st = 0 ∧
    (∀ x y, (State.resetWith c).fb.pixel x y = false) ∧ (∀ k : KeyIdx, (State.resetWith c).key[k.val] = false) ∧
    (State.resetWith c).wait = none ∧ (State.resetWith c).dirty = false ∧
    (∀ a : Fin 80, (State.resetWith c).readByte a.val = c.font[a.val]) ∧
    (∀ a, 80 ≤ a → (State.resetWith c).readByte a = 0)

/-- `init()` gives the reset state of the same machine from every state, waiting or not (R160); the model's own count of draws goes
on (log 3). That `init()` is also the host's reset, and its `wait` and `dirty`, are the spec's decision D9 (log 11). -/
def Obligations.InitIsReset : Prop :=
  ∀ s : State, Operation.init.apply s = (State.resetWith s.config).setDraws s.draws ∧ Operation.init.reply s = .nothing

/-- `load` of at most 3584 bytes (R162): the bytes at 0x200 and up; every other byte and all else stay, which
is the spec's decision D17 (log 16). -/
def Obligations.LoadCopiesTheProgram : Prop :=
  ∀ (s : State) (bytes : List Byte), s.canonical → bytes.length ≤ 3584 →
    ∃ t, s.loadProgram bytes = .ok t ∧ (Operation.load bytes).reply s = .ok ∧
      (∀ k, k < bytes.length → t.readByte (0x200 + k) = bytes.getD k 0) ∧
      (∀ a, (a < 0x200 ∨ 0x200 + bytes.length ≤ a) → t.readByte a = s.readByte a) ∧ t = s.setMem t.mem

/-- R163: `load` of more than 3584 bytes returns ProgramTooLarge and changes nothing; 3584 = 4096 − 0x200 is the
longest that is accepted. -/
def Obligations.LoadTooLongChangesNothing : Prop :=
  ∀ (s : State) (bytes : List Byte),
    (3584 < bytes.length → s.loadProgram bytes = .error .programTooLarge ∧
      (Operation.load bytes).reply s = .loadFailed .programTooLarge ∧ (Operation.load bytes).apply s = s) ∧
    (bytes.length ≤ 4096 - 0x200 ↔ ∃ t, s.loadProgram bytes = .ok t)

/-! ### The parameters -/

/-- The open parameters are no state (R6, R22): no schedule of steps and host operations changes them, so a run
is one machine's, and a claim about every state holds for every value of them (log 27). -/
def Obligations.ParametersAreConstant : Prop :=
  ∀ (ops : List Operation) (s : State), (runSchedule ops s).config = s.config
end

