-- ==== Sys2Proof/Laws/Decode.lean ====
section
/-! SUPPORT. The fields of a word as numbers (R51), the fields of a packed word (R52), and the three masks of
the opcode map as arithmetic (R54). -/

namespace Sys2Proof

theorem nibbleAt_val (w : Word) (lo : Nat) : (nibbleAt w lo).val = w.toNat / 2 ^ lo % 16 := by
  simp [nibbleAt, Nat.shiftRight_eq_div_pow]

theorem fieldsOf_c (w : Word) : (fieldsOf w).c.val = w.toNat / 4096 := by
  have := w.isLt
  simp only [fieldsOf, nibbleAt_val]
  omega

theorem fieldsOf_x (w : Word) : (fieldsOf w).x.val = w.toNat / 256 % 16 := nibbleAt_val w 8

theorem fieldsOf_y (w : Word) : (fieldsOf w).y.val = w.toNat / 16 % 16 := nibbleAt_val w 4

theorem fieldsOf_n (w : Word) : (fieldsOf w).n.val = w.toNat % 16 := by
  simp only [fieldsOf, nibbleAt_val, Nat.pow_zero, Nat.div_one]

theorem fieldsOf_nn (w : Word) : (fieldsOf w).nn.toNat = w.toNat % 256 := by
  simp [fieldsOf, BitVec.extractLsb'_toNat]

theorem fieldsOf_nnn (w : Word) : (fieldsOf w).nnn.toNat = w.toNat % 4096 := by
  simp [fieldsOf, BitVec.extractLsb'_toNat]

theorem packA_toNat {c : Nat} (hc : c < 16) (nnn : Addr12) : (packA c nnn).toNat = c * 4096 + nnn.toNat := by
  have := nnn.isLt
  simp only [packA, BitVec.toNat_ofNat]
  omega

theorem packXI_toNat {c : Nat} (hc : c < 16) (x : RegIdx) (nn : Byte) :
    (packXI c x nn).toNat = c * 4096 + x.val * 256 + nn.toNat := by
  have := nn.isLt
  simp only [packXI, BitVec.toNat_ofNat]
  omega

theorem packXY_toNat {c : Nat} (hc : c < 16) (x y : RegIdx) (n : Fin 16) :
    (packXY c x y n).toNat = c * 4096 + x.val * 256 + y.val * 16 + n.val := by
  simp only [packXY, BitVec.toNat_ofNat]
  omega

/-! ### The fields of a packed word (R52): what the decoder reads back of each format. -/

theorem fieldsOf_packA {c : Nat} (hc : c < 16) (nnn : Addr12) :
    (fieldsOf (packA c nnn)).c.val = c ∧ (fieldsOf (packA c nnn)).nnn = nnn := by
  have := nnn.isLt
  refine ⟨?_, BitVec.eq_of_toNat_eq ?_⟩
  · rw [fieldsOf_c, packA_toNat hc]; omega
  · rw [fieldsOf_nnn, packA_toNat hc]; omega

theorem fieldsOf_packXI {c : Nat} (hc : c < 16) (x : RegIdx) (nn : Byte) :
    (fieldsOf (packXI c x nn)).c.val = c ∧ (fieldsOf (packXI c x nn)).x = x ∧
      (fieldsOf (packXI c x nn)).nn = nn := by
  have := nn.isLt
  refine ⟨?_, Fin.ext ?_, BitVec.eq_of_toNat_eq ?_⟩
  · rw [fieldsOf_c, packXI_toNat hc]; omega
  · rw [fieldsOf_x, packXI_toNat hc]; omega
  · rw [fieldsOf_nn, packXI_toNat hc]; omega

theorem fieldsOf_packXY {c : Nat} (hc : c < 16) (x y : RegIdx) (n : Fin 16) :
    (fieldsOf (packXY c x y n)).c.val = c ∧ (fieldsOf (packXY c x y n)).x = x ∧
      (fieldsOf (packXY c x y n)).y = y ∧ (fieldsOf (packXY c x y n)).n = n := by
  refine ⟨?_, Fin.ext ?_, Fin.ext ?_, Fin.ext ?_⟩
  · rw [fieldsOf_c, packXY_toNat hc]; omega
  · rw [fieldsOf_x, packXY_toNat hc]; omega
  · rw [fieldsOf_y, packXY_toNat hc]; omega
  · rw [fieldsOf_n, packXY_toNat hc]; omega

/-- A word decodes to an instruction exactly when its fields do (R69). -/
theorem decodeWord_ok {w : Word} {i : Instr} : decodeWord w = .ok i ↔ decodeFields (fieldsOf w) = some i := by
  unfold decodeWord
  cases decodeFields (fieldsOf w) <;> simp

/-- A word that decodes to nothing is refused by its own name (R55). -/
theorem decodeWord_error {w : Word} {e : DecodeError} :
    decodeWord w = .error e ↔ decodeFields (fieldsOf w) = none ∧ e = .undefinedEncoding w := by
  unfold decodeWord
  cases decodeFields (fieldsOf w) <;> simp [eq_comm]

/-- The two bytes of a word, put together again, are the word (R31). -/
theorem wordOfBytes_hi_lo (w : Word) : wordOfBytes (hiByte w) (loByte w) = w := by
  apply BitVec.eq_of_getLsbD_eq
  intro k hk
  simp only [wordOfBytes, hiByte, loByte, BitVec.getLsbD_append, BitVec.getLsbD_extractLsb']
  by_cases h : k < 8
  · simp [h]
  · have : k - 8 < 8 := by omega
    simp [h, this, show 8 + (k - 8) = k by omega]

/-- The word of two bytes is b0·256 + b1 (R31). -/
theorem wordOfBytes_toNat (b0 b1 : Byte) : (wordOfBytes b0 b1).toNat = b0.toNat * 256 + b1.toNat := by
  have := b1.isLt
  rw [wordOfBytes, BitVec.toNat_append, ← Nat.shiftLeft_add_eq_or_of_lt this, Nat.shiftLeft_eq]

/-- A mask that keeps the top nibble and the low k bits, as arithmetic. -/
theorem and_high_low (w : Word) {k : Nat} (hk : k < 12) {m : Word}
    (hm : ∀ j < 16, m.getLsbD j = (decide (12 ≤ j) || decide (j < k))) :
    (w &&& m).toNat = w.toNat / 4096 * 4096 + w.toNat % 2 ^ k := by
  have low : w.toNat % 2 ^ k < 2 ^ 12 :=
    (Nat.mod_lt _ (Nat.two_pow_pos k)).trans_le (Nat.pow_le_pow_right (by omega) (by omega))
  have e : w.toNat / 4096 * 4096 = (w.toNat >>> 12) <<< 12 := by
    rw [Nat.shiftRight_eq_div_pow, Nat.shiftLeft_eq]
  rw [e, Nat.shiftLeft_add_eq_or_of_lt low]
  apply Nat.eq_of_testBit_eq
  intro j
  rw [BitVec.testBit_toNat, BitVec.getLsbD_and, Nat.testBit_or, Nat.testBit_shiftLeft,
    Nat.testBit_shiftRight, Nat.testBit_mod_two_pow, BitVec.testBit_toNat, BitVec.testBit_toNat]
  by_cases hj : j < 16
  · rw [hm j hj]
    by_cases h12 : 12 ≤ j
    · have : ¬ j < k := by omega
      simp [h12, this, show 12 + (j - 12) = j by omega]
    · simp [h12, Bool.and_comm]
  · have h1 : w.getLsbD j = false := BitVec.getLsbD_of_ge _ _ (by omega)
    have h2 : w.getLsbD (12 + (j - 12)) = false := BitVec.getLsbD_of_ge _ _ (by omega)
    simp [h1, h2]

theorem and_F000 (w : Word) : (w &&& 0xF000).toNat = w.toNat / 4096 * 4096 := by
  rw [and_high_low w (k := 0) (by omega) (by decide), Nat.pow_zero, Nat.mod_one, Nat.add_zero]

theorem and_F00F (w : Word) : (w &&& 0xF00F).toNat = w.toNat / 4096 * 4096 + w.toNat % 16 :=
  and_high_low w (k := 4) (by omega) (by decide)

theorem and_F0FF (w : Word) : (w &&& 0xF0FF).toNat = w.toNat / 4096 * 4096 + w.toNat % 256 :=
  and_high_low w (k := 8) (by omega) (by decide)

/-- A row without a selector: the category decides (R54). -/
theorem admits_F000 {v w : Word} : (OpRow.mk 0xF000 v).admits w = true ↔ w.toNat / 4096 * 4096 = v.toNat := by
  rw [OpRow.admits, beq_iff_eq, ← BitVec.toNat_inj, and_F000]

/-- A row whose selector is N (R54). -/
theorem admits_F00F {v w : Word} :
    (OpRow.mk 0xF00F v).admits w = true ↔ w.toNat / 4096 * 4096 + w.toNat % 16 = v.toNat := by
  rw [OpRow.admits, beq_iff_eq, ← BitVec.toNat_inj, and_F00F]

/-- A row whose selector is NN (R54). -/
theorem admits_F0FF {v w : Word} :
    (OpRow.mk 0xF0FF v).admits w = true ↔ w.toNat / 4096 * 4096 + w.toNat % 256 = v.toNat := by
  rw [OpRow.admits, beq_iff_eq, ← BitVec.toNat_inj, and_F0FF]

/-- A row that is one exact word (R54). -/
theorem admits_FFFF {v w : Word} : (OpRow.mk 0xFFFF v).admits w = true ↔ w = v := by
  have : w &&& 0xFFFF = w := BitVec.and_allOnes
  rw [OpRow.admits, beq_iff_eq, this]

end Sys2Proof
end

