-- ==== Sys2Proof/Laws/Memory.lean ====
section
/-! SUPPORT. What the memory primitives do (R43), that they keep the canonical form, and that the canonical
form is canonical. -/

namespace Sys2Proof.Machine

variable {f : Font}

/-- After reset an address below 80 holds its font byte (R21). -/
theorem resetByte_font (a : Fin 80) : resetByte f a.val = f[a.val] := dif_pos a.isLt

/-- After reset an address above the font holds 0 (R21). -/
theorem resetByte_above {a : Nat} (h : 80 ≤ a) : resetByte f a = 0 := dif_neg (Nat.not_lt.mpr h)

theorem read_cellOf (a b : _) (c : Nat) :
    Memory.read f (cellOf f a b) c = if c = a then b else resetByte f c := by
  unfold cellOf
  split
  · rename_i h
    by_cases hc : c = a
    · subst hc; simp [Memory.read, h]
    · simp [Memory.read, hc]
  · simp [Memory.read]

/-- A read below every listed address gives the reset contents. -/
theorem read_of_lt {m : Memory} {a : Nat} (h : ∀ c ∈ m, a < c.1) : Memory.read f m a = resetByte f a := by
  induction m with
  | nil => rfl
  | cons c m ih =>
    have := h c (by simp)
    rw [Memory.read, if_neg (by omega), ih fun d hd => h d (by simp [hd])]

theorem read_cellOf_append (a : Nat) (b : Byte) (m : Memory) (c : Nat) :
    Memory.read f (cellOf f a b ++ m) c = if c = a ∧ b ≠ resetByte f a then b else Memory.read f m c := by
  unfold cellOf
  split
  · simp [*]
  · by_cases hc : c = a <;> simp [Memory.read, *]

/-- A tail of a canonical memory is canonical, and its addresses lie above the head. -/
theorem wf_cons {c : Host.Cell} {m : Memory} :
    Memory.wf f (c :: m) ↔
      (∀ d ∈ m, c.1 < d.1) ∧ (c.1 < Config.memSize ∧ c.2 ≠ resetByte f c.1) ∧ Memory.wf f m := by
  simp only [Memory.wf, List.map_cons, List.pairwise_cons, List.mem_map, List.mem_cons,
    forall_exists_index, and_imp, forall_apply_eq_imp_iff₂, forall_eq_or_imp]
  tauto

/-- READ AFTER WRITE (R43): a holds what was written, every other byte is as it was. -/
theorem read_write {m : Memory} (hm : m.wf f) (a : Nat) (b : Byte) (c : Nat) :
    Memory.read f (Memory.write f m a b) c = if c = a then b else Memory.read f m c := by
  induction m with
  | nil => rw [Memory.write, read_cellOf, Memory.read]
  | cons d m ih =>
    obtain ⟨hlt, -, hm'⟩ := wf_cons.mp hm
    rw [Memory.write]
    split
    · rename_i hlow
      have above : ∀ e ∈ d :: m, a < e.1 := by
        intro e he
        rcases List.mem_cons.mp he with rfl | he
        · exact hlow
        · exact hlow.trans (hlt e he)
      rw [read_cellOf_append]
      by_cases hc : c = a
      · subst hc
        by_cases hb : b = resetByte f c <;> simp [hb, read_of_lt above]
      · simp [hc]
    · split
      · rename_i heq
        subst heq
        rw [read_cellOf_append]
        by_cases hc : c = d.1
        · subst hc
          by_cases hb : b = resetByte f d.1 <;> simp [hb, read_of_lt hlt]
        · simp [Memory.read, hc]
      · rename_i hne
        by_cases hc : c = d.1
        · subst hc
          have : d.1 ≠ a := fun h => hne h.symm
          simp [Memory.read, this]
        · simp [Memory.read, hc, ih hm']

theorem mem_cellOf {a : Nat} {b : Byte} {c : Host.Cell} (h : c ∈ cellOf f a b) :
    c = (a, b) ∧ b ≠ resetByte f a := by
  unfold cellOf at h
  split at h
  · simp at h
  · exact ⟨by simpa using h, by assumption⟩

/-- A cell of the written memory is the new one or an old one. -/
theorem mem_write {m : Memory} {a : Nat} {b : Byte} {c : Host.Cell} (h : c ∈ Memory.write f m a b) :
    (c = (a, b) ∧ b ≠ resetByte f a) ∨ c ∈ m := by
  induction m with
  | nil => exact .inl (mem_cellOf h)
  | cons d m ih =>
    rw [Memory.write] at h
    split at h
    · rcases List.mem_append.mp h with h | h
      · exact .inl (mem_cellOf h)
      · exact .inr h
    · split at h
      · rcases List.mem_append.mp h with h | h
        · exact .inl (mem_cellOf h)
        · exact .inr (by simp [h])
      · rcases List.mem_cons.mp h with rfl | h
        · exact .inr (by simp)
        · exact (ih h).imp_right fun h => by simp [h]

theorem wf_cellOf_append {a : Nat} {b : Byte} {m : Memory} (ha : a < Config.memSize) (hm : m.wf f)
    (above : ∀ c ∈ m, a < c.1) : Memory.wf f (cellOf f a b ++ m) := by
  unfold cellOf
  split
  · exact hm
  · exact wf_cons.mpr ⟨above, ⟨ha, by assumption⟩, hm⟩

/-- A write at an address of the machine keeps the canonical form. -/
theorem wf_write {m : Memory} (hm : m.wf f) {a : Nat} (ha : a < Config.memSize) (b : Byte) :
    (Memory.write f m a b).wf f := by
  induction m with
  | nil => simpa [Memory.write] using wf_cellOf_append (b := b) ha hm (by simp)
  | cons d m ih =>
    obtain ⟨hlt, hd, hm'⟩ := wf_cons.mp hm
    rw [Memory.write]
    split
    · rename_i hlow
      refine wf_cellOf_append ha hm fun e he => ?_
      rcases List.mem_cons.mp he with rfl | he
      · exact hlow
      · exact hlow.trans (hlt e he)
    · split
      · rename_i heq
        subst heq
        exact wf_cellOf_append ha hm' hlt
      · rename_i hge hne
        refine wf_cons.mpr ⟨fun e he => ?_, hd, ih hm'⟩
        rcases mem_write he with ⟨rfl, -⟩ | he
        · change d.1 < a
          omega
        · exact hlt e he

/-- Writing bytes inside the address space keeps the canonical form. -/
theorem wf_writeBytes {m : Memory} (hm : m.wf f) (base : Nat) (bs : List Byte)
    (h : base + bs.length ≤ Config.memSize) : (Memory.writeBytes f m base bs).wf f := by
  induction bs generalizing m base with
  | nil => exact hm
  | cons b bs ih =>
    rw [List.length_cons] at h
    exact ih (wf_write hm (by omega) b) (base + 1) (by omega)

/-- What a byte reads after a list of bytes was written from `base`. -/
theorem read_writeBytes {m : Memory} (hm : m.wf f) (base : Nat) (bs : List Byte)
    (h : base + bs.length ≤ Config.memSize) (c : Nat) :
    Memory.read f (Memory.writeBytes f m base bs) c =
      if base ≤ c ∧ c < base + bs.length then bs.getD (c - base) 0 else Memory.read f m c := by
  induction bs generalizing m base with
  | nil => simp [Memory.writeBytes]
  | cons b bs ih =>
    rw [List.length_cons] at h
    rw [Memory.writeBytes, ih (wf_write hm (by omega) b) (base + 1) (by omega), read_write hm]
    rw [List.length_cons]
    rcases Nat.lt_trichotomy c base with hc | rfl | hc
    · rw [if_neg (by omega), if_neg (by omega), if_neg (by omega)]
    · simp
    · obtain ⟨k, rfl⟩ := Nat.exists_eq_add_of_lt hc
      have e1 : base + k + 1 - (base + 1) = k := by omega
      have e2 : base + k + 1 - base = k + 1 := by omega
      by_cases hk : k < bs.length
      · rw [if_pos (by omega), if_pos (by omega), e1, e2, List.getD_cons_succ]
      · rw [if_neg (by omega), if_neg (by omega), if_neg (by omega)]

@[simp] theorem readBytes_length (m : Memory) (base len : Nat) : (m.readBytes f base len).length = len := by
  simp [Memory.readBytes]

theorem readBytes_getD (m : Memory) (base len k : Nat) (h : k < len) :
    (m.readBytes f base len).getD k 0 = m.read f (base + k) := by
  simp [Memory.readBytes, List.getD_eq_getElem?_getD, List.getElem?_range h]

/-- A byte that reads otherwise than after reset is listed. -/
theorem mem_of_read_ne {m : Memory} {a : Nat} (h : Memory.read f m a ≠ resetByte f a) : (a, Memory.read f m a) ∈ m := by
  induction m with
  | nil => simp [Memory.read] at h
  | cons d m ih =>
    by_cases hd : a = d.1
    · subst hd
      simp [Memory.read]
    · simp only [Memory.read, if_neg hd] at h ⊢
      exact List.mem_cons_of_mem _ (ih h)

/-- A listed byte of a canonical memory is what is read. -/
theorem read_of_mem {m : Memory} (hm : m.wf f) {c : Host.Cell} (h : c ∈ m) : Memory.read f m c.1 = c.2 := by
  induction m with
  | nil => simp at h
  | cons d m ih =>
    obtain ⟨hlt, -, hm'⟩ := wf_cons.mp hm
    rcases List.mem_cons.mp h with rfl | h
    · simp [Memory.read]
    · have := hlt c h
      rw [Memory.read, if_neg (by omega), ih hm' h]

/-- THE FORM IS CANONICAL: memories that hold the same bytes are the same list. -/
theorem wf_ext {m n : Memory} (hm : m.wf f) (hn : n.wf f) (h : ∀ a, Memory.read f m a = Memory.read f n a) : m = n := by
  have sub : ∀ {p q : Memory}, p.wf f → q.wf f → (∀ a, Memory.read f p a = Memory.read f q a) → p ⊆ q := by
    intro p q hp hq hpq c hc
    have e := read_of_mem hp hc
    have ne := (hp.2 c hc).2
    have : (c.1, Memory.read f q c.1) ∈ q := mem_of_read_ne (by rw [← hpq, e]; exact ne)
    rwa [← hpq, e] at this
  have key : ∀ {p : Memory}, p.wf f → p.Pairwise fun c d => c.1 < d.1 :=
    fun hp => List.pairwise_map.mp hp.1
  have nodup : ∀ {p : Memory}, p.wf f → p.Nodup :=
    fun hp => (key hp).imp fun hlt e => by subst e; exact Nat.lt_irrefl _ hlt
  refine List.Perm.eq_of_pairwise ?_ (key hm) (key hn)
    ((List.perm_ext_iff_of_nodup (nodup hm) (nodup hn)).mpr fun c => ⟨(sub hm hn h ·), (sub hn hm (fun a => (h a).symm) ·)⟩)
  intro c d _ _ h1 h2
  exact absurd (h1.trans h2) (Nat.lt_irrefl _)

end Sys2Proof.Machine
end

