-- ==== Sys2Proof/Laws/State.lean ====
section
/-! SUPPORT. One lemma per field per update of the state, so that no later proof unfolds a record update. -/

namespace Sys2Proof.Machine

variable (s : State)

@[simp] theorem State.setMem_config (a : Memory) : (s.setMem a).config = s.config := rfl
@[simp] theorem State.setV_config (a : Vector Byte 16) : (s.setV a).config = s.config := rfl
@[simp] theorem State.setI_config (a : Word) : (s.setI a).config = s.config := rfl
@[simp] theorem State.setPc_config (a : Word) : (s.setPc a).config = s.config := rfl
@[simp] theorem State.setStack_config (a : List Word) : (s.setStack a).config = s.config := rfl
@[simp] theorem State.setDt_config (a : Byte) : (s.setDt a).config = s.config := rfl
@[simp] theorem State.setSt_config (a : Byte) : (s.setSt a).config = s.config := rfl
@[simp] theorem State.setFb_config (a : Framebuffer) : (s.setFb a).config = s.config := rfl
@[simp] theorem State.setKey_config (a : Vector Bool 16) : (s.setKey a).config = s.config := rfl
@[simp] theorem State.setWait_config (a : Option RegIdx) : (s.setWait a).config = s.config := rfl
@[simp] theorem State.setDirty_config (a : Bool) : (s.setDirty a).config = s.config := rfl
@[simp] theorem State.setDraws_config (a : Nat) : (s.setDraws a).config = s.config := rfl

@[simp] theorem State.setMem_mem (a : Memory) : (s.setMem a).mem = a := rfl
@[simp] theorem State.setV_mem (a : Vector Byte 16) : (s.setV a).mem = s.mem := rfl
@[simp] theorem State.setI_mem (a : Word) : (s.setI a).mem = s.mem := rfl
@[simp] theorem State.setPc_mem (a : Word) : (s.setPc a).mem = s.mem := rfl
@[simp] theorem State.setStack_mem (a : List Word) : (s.setStack a).mem = s.mem := rfl
@[simp] theorem State.setDt_mem (a : Byte) : (s.setDt a).mem = s.mem := rfl
@[simp] theorem State.setSt_mem (a : Byte) : (s.setSt a).mem = s.mem := rfl
@[simp] theorem State.setFb_mem (a : Framebuffer) : (s.setFb a).mem = s.mem := rfl
@[simp] theorem State.setKey_mem (a : Vector Bool 16) : (s.setKey a).mem = s.mem := rfl
@[simp] theorem State.setWait_mem (a : Option RegIdx) : (s.setWait a).mem = s.mem := rfl
@[simp] theorem State.setDirty_mem (a : Bool) : (s.setDirty a).mem = s.mem := rfl
@[simp] theorem State.setDraws_mem (a : Nat) : (s.setDraws a).mem = s.mem := rfl

@[simp] theorem State.setMem_v (a : Memory) : (s.setMem a).v = s.v := rfl
@[simp] theorem State.setV_v (a : Vector Byte 16) : (s.setV a).v = a := rfl
@[simp] theorem State.setI_v (a : Word) : (s.setI a).v = s.v := rfl
@[simp] theorem State.setPc_v (a : Word) : (s.setPc a).v = s.v := rfl
@[simp] theorem State.setStack_v (a : List Word) : (s.setStack a).v = s.v := rfl
@[simp] theorem State.setDt_v (a : Byte) : (s.setDt a).v = s.v := rfl
@[simp] theorem State.setSt_v (a : Byte) : (s.setSt a).v = s.v := rfl
@[simp] theorem State.setFb_v (a : Framebuffer) : (s.setFb a).v = s.v := rfl
@[simp] theorem State.setKey_v (a : Vector Bool 16) : (s.setKey a).v = s.v := rfl
@[simp] theorem State.setWait_v (a : Option RegIdx) : (s.setWait a).v = s.v := rfl
@[simp] theorem State.setDirty_v (a : Bool) : (s.setDirty a).v = s.v := rfl
@[simp] theorem State.setDraws_v (a : Nat) : (s.setDraws a).v = s.v := rfl

@[simp] theorem State.setMem_i (a : Memory) : (s.setMem a).i = s.i := rfl
@[simp] theorem State.setV_i (a : Vector Byte 16) : (s.setV a).i = s.i := rfl
@[simp] theorem State.setI_i (a : Word) : (s.setI a).i = a := rfl
@[simp] theorem State.setPc_i (a : Word) : (s.setPc a).i = s.i := rfl
@[simp] theorem State.setStack_i (a : List Word) : (s.setStack a).i = s.i := rfl
@[simp] theorem State.setDt_i (a : Byte) : (s.setDt a).i = s.i := rfl
@[simp] theorem State.setSt_i (a : Byte) : (s.setSt a).i = s.i := rfl
@[simp] theorem State.setFb_i (a : Framebuffer) : (s.setFb a).i = s.i := rfl
@[simp] theorem State.setKey_i (a : Vector Bool 16) : (s.setKey a).i = s.i := rfl
@[simp] theorem State.setWait_i (a : Option RegIdx) : (s.setWait a).i = s.i := rfl
@[simp] theorem State.setDirty_i (a : Bool) : (s.setDirty a).i = s.i := rfl
@[simp] theorem State.setDraws_i (a : Nat) : (s.setDraws a).i = s.i := rfl

@[simp] theorem State.setMem_pc (a : Memory) : (s.setMem a).pc = s.pc := rfl
@[simp] theorem State.setV_pc (a : Vector Byte 16) : (s.setV a).pc = s.pc := rfl
@[simp] theorem State.setI_pc (a : Word) : (s.setI a).pc = s.pc := rfl
@[simp] theorem State.setPc_pc (a : Word) : (s.setPc a).pc = a := rfl
@[simp] theorem State.setStack_pc (a : List Word) : (s.setStack a).pc = s.pc := rfl
@[simp] theorem State.setDt_pc (a : Byte) : (s.setDt a).pc = s.pc := rfl
@[simp] theorem State.setSt_pc (a : Byte) : (s.setSt a).pc = s.pc := rfl
@[simp] theorem State.setFb_pc (a : Framebuffer) : (s.setFb a).pc = s.pc := rfl
@[simp] theorem State.setKey_pc (a : Vector Bool 16) : (s.setKey a).pc = s.pc := rfl
@[simp] theorem State.setWait_pc (a : Option RegIdx) : (s.setWait a).pc = s.pc := rfl
@[simp] theorem State.setDirty_pc (a : Bool) : (s.setDirty a).pc = s.pc := rfl
@[simp] theorem State.setDraws_pc (a : Nat) : (s.setDraws a).pc = s.pc := rfl

@[simp] theorem State.setMem_stack (a : Memory) : (s.setMem a).stack = s.stack := rfl
@[simp] theorem State.setV_stack (a : Vector Byte 16) : (s.setV a).stack = s.stack := rfl
@[simp] theorem State.setI_stack (a : Word) : (s.setI a).stack = s.stack := rfl
@[simp] theorem State.setPc_stack (a : Word) : (s.setPc a).stack = s.stack := rfl
@[simp] theorem State.setStack_stack (a : List Word) : (s.setStack a).stack = a := rfl
@[simp] theorem State.setDt_stack (a : Byte) : (s.setDt a).stack = s.stack := rfl
@[simp] theorem State.setSt_stack (a : Byte) : (s.setSt a).stack = s.stack := rfl
@[simp] theorem State.setFb_stack (a : Framebuffer) : (s.setFb a).stack = s.stack := rfl
@[simp] theorem State.setKey_stack (a : Vector Bool 16) : (s.setKey a).stack = s.stack := rfl
@[simp] theorem State.setWait_stack (a : Option RegIdx) : (s.setWait a).stack = s.stack := rfl
@[simp] theorem State.setDirty_stack (a : Bool) : (s.setDirty a).stack = s.stack := rfl
@[simp] theorem State.setDraws_stack (a : Nat) : (s.setDraws a).stack = s.stack := rfl

@[simp] theorem State.setMem_dt (a : Memory) : (s.setMem a).dt = s.dt := rfl
@[simp] theorem State.setV_dt (a : Vector Byte 16) : (s.setV a).dt = s.dt := rfl
@[simp] theorem State.setI_dt (a : Word) : (s.setI a).dt = s.dt := rfl
@[simp] theorem State.setPc_dt (a : Word) : (s.setPc a).dt = s.dt := rfl
@[simp] theorem State.setStack_dt (a : List Word) : (s.setStack a).dt = s.dt := rfl
@[simp] theorem State.setDt_dt (a : Byte) : (s.setDt a).dt = a := rfl
@[simp] theorem State.setSt_dt (a : Byte) : (s.setSt a).dt = s.dt := rfl
@[simp] theorem State.setFb_dt (a : Framebuffer) : (s.setFb a).dt = s.dt := rfl
@[simp] theorem State.setKey_dt (a : Vector Bool 16) : (s.setKey a).dt = s.dt := rfl
@[simp] theorem State.setWait_dt (a : Option RegIdx) : (s.setWait a).dt = s.dt := rfl
@[simp] theorem State.setDirty_dt (a : Bool) : (s.setDirty a).dt = s.dt := rfl
@[simp] theorem State.setDraws_dt (a : Nat) : (s.setDraws a).dt = s.dt := rfl

@[simp] theorem State.setMem_st (a : Memory) : (s.setMem a).st = s.st := rfl
@[simp] theorem State.setV_st (a : Vector Byte 16) : (s.setV a).st = s.st := rfl
@[simp] theorem State.setI_st (a : Word) : (s.setI a).st = s.st := rfl
@[simp] theorem State.setPc_st (a : Word) : (s.setPc a).st = s.st := rfl
@[simp] theorem State.setStack_st (a : List Word) : (s.setStack a).st = s.st := rfl
@[simp] theorem State.setDt_st (a : Byte) : (s.setDt a).st = s.st := rfl
@[simp] theorem State.setSt_st (a : Byte) : (s.setSt a).st = a := rfl
@[simp] theorem State.setFb_st (a : Framebuffer) : (s.setFb a).st = s.st := rfl
@[simp] theorem State.setKey_st (a : Vector Bool 16) : (s.setKey a).st = s.st := rfl
@[simp] theorem State.setWait_st (a : Option RegIdx) : (s.setWait a).st = s.st := rfl
@[simp] theorem State.setDirty_st (a : Bool) : (s.setDirty a).st = s.st := rfl
@[simp] theorem State.setDraws_st (a : Nat) : (s.setDraws a).st = s.st := rfl

@[simp] theorem State.setMem_fb (a : Memory) : (s.setMem a).fb = s.fb := rfl
@[simp] theorem State.setV_fb (a : Vector Byte 16) : (s.setV a).fb = s.fb := rfl
@[simp] theorem State.setI_fb (a : Word) : (s.setI a).fb = s.fb := rfl
@[simp] theorem State.setPc_fb (a : Word) : (s.setPc a).fb = s.fb := rfl
@[simp] theorem State.setStack_fb (a : List Word) : (s.setStack a).fb = s.fb := rfl
@[simp] theorem State.setDt_fb (a : Byte) : (s.setDt a).fb = s.fb := rfl
@[simp] theorem State.setSt_fb (a : Byte) : (s.setSt a).fb = s.fb := rfl
@[simp] theorem State.setFb_fb (a : Framebuffer) : (s.setFb a).fb = a := rfl
@[simp] theorem State.setKey_fb (a : Vector Bool 16) : (s.setKey a).fb = s.fb := rfl
@[simp] theorem State.setWait_fb (a : Option RegIdx) : (s.setWait a).fb = s.fb := rfl
@[simp] theorem State.setDirty_fb (a : Bool) : (s.setDirty a).fb = s.fb := rfl
@[simp] theorem State.setDraws_fb (a : Nat) : (s.setDraws a).fb = s.fb := rfl

@[simp] theorem State.setMem_key (a : Memory) : (s.setMem a).key = s.key := rfl
@[simp] theorem State.setV_key (a : Vector Byte 16) : (s.setV a).key = s.key := rfl
@[simp] theorem State.setI_key (a : Word) : (s.setI a).key = s.key := rfl
@[simp] theorem State.setPc_key (a : Word) : (s.setPc a).key = s.key := rfl
@[simp] theorem State.setStack_key (a : List Word) : (s.setStack a).key = s.key := rfl
@[simp] theorem State.setDt_key (a : Byte) : (s.setDt a).key = s.key := rfl
@[simp] theorem State.setSt_key (a : Byte) : (s.setSt a).key = s.key := rfl
@[simp] theorem State.setFb_key (a : Framebuffer) : (s.setFb a).key = s.key := rfl
@[simp] theorem State.setKey_key (a : Vector Bool 16) : (s.setKey a).key = a := rfl
@[simp] theorem State.setWait_key (a : Option RegIdx) : (s.setWait a).key = s.key := rfl
@[simp] theorem State.setDirty_key (a : Bool) : (s.setDirty a).key = s.key := rfl
@[simp] theorem State.setDraws_key (a : Nat) : (s.setDraws a).key = s.key := rfl

@[simp] theorem State.setMem_wait (a : Memory) : (s.setMem a).wait = s.wait := rfl
@[simp] theorem State.setV_wait (a : Vector Byte 16) : (s.setV a).wait = s.wait := rfl
@[simp] theorem State.setI_wait (a : Word) : (s.setI a).wait = s.wait := rfl
@[simp] theorem State.setPc_wait (a : Word) : (s.setPc a).wait = s.wait := rfl
@[simp] theorem State.setStack_wait (a : List Word) : (s.setStack a).wait = s.wait := rfl
@[simp] theorem State.setDt_wait (a : Byte) : (s.setDt a).wait = s.wait := rfl
@[simp] theorem State.setSt_wait (a : Byte) : (s.setSt a).wait = s.wait := rfl
@[simp] theorem State.setFb_wait (a : Framebuffer) : (s.setFb a).wait = s.wait := rfl
@[simp] theorem State.setKey_wait (a : Vector Bool 16) : (s.setKey a).wait = s.wait := rfl
@[simp] theorem State.setWait_wait (a : Option RegIdx) : (s.setWait a).wait = a := rfl
@[simp] theorem State.setDirty_wait (a : Bool) : (s.setDirty a).wait = s.wait := rfl
@[simp] theorem State.setDraws_wait (a : Nat) : (s.setDraws a).wait = s.wait := rfl

@[simp] theorem State.setMem_dirty (a : Memory) : (s.setMem a).dirty = s.dirty := rfl
@[simp] theorem State.setV_dirty (a : Vector Byte 16) : (s.setV a).dirty = s.dirty := rfl
@[simp] theorem State.setI_dirty (a : Word) : (s.setI a).dirty = s.dirty := rfl
@[simp] theorem State.setPc_dirty (a : Word) : (s.setPc a).dirty = s.dirty := rfl
@[simp] theorem State.setStack_dirty (a : List Word) : (s.setStack a).dirty = s.dirty := rfl
@[simp] theorem State.setDt_dirty (a : Byte) : (s.setDt a).dirty = s.dirty := rfl
@[simp] theorem State.setSt_dirty (a : Byte) : (s.setSt a).dirty = s.dirty := rfl
@[simp] theorem State.setFb_dirty (a : Framebuffer) : (s.setFb a).dirty = s.dirty := rfl
@[simp] theorem State.setKey_dirty (a : Vector Bool 16) : (s.setKey a).dirty = s.dirty := rfl
@[simp] theorem State.setWait_dirty (a : Option RegIdx) : (s.setWait a).dirty = s.dirty := rfl
@[simp] theorem State.setDirty_dirty (a : Bool) : (s.setDirty a).dirty = a := rfl
@[simp] theorem State.setDraws_dirty (a : Nat) : (s.setDraws a).dirty = s.dirty := rfl

@[simp] theorem State.setMem_draws (a : Memory) : (s.setMem a).draws = s.draws := rfl
@[simp] theorem State.setV_draws (a : Vector Byte 16) : (s.setV a).draws = s.draws := rfl
@[simp] theorem State.setI_draws (a : Word) : (s.setI a).draws = s.draws := rfl
@[simp] theorem State.setPc_draws (a : Word) : (s.setPc a).draws = s.draws := rfl
@[simp] theorem State.setStack_draws (a : List Word) : (s.setStack a).draws = s.draws := rfl
@[simp] theorem State.setDt_draws (a : Byte) : (s.setDt a).draws = s.draws := rfl
@[simp] theorem State.setSt_draws (a : Byte) : (s.setSt a).draws = s.draws := rfl
@[simp] theorem State.setFb_draws (a : Framebuffer) : (s.setFb a).draws = s.draws := rfl
@[simp] theorem State.setKey_draws (a : Vector Bool 16) : (s.setKey a).draws = s.draws := rfl
@[simp] theorem State.setWait_draws (a : Option RegIdx) : (s.setWait a).draws = s.draws := rfl
@[simp] theorem State.setDirty_draws (a : Bool) : (s.setDirty a).draws = s.draws := rfl
@[simp] theorem State.setDraws_draws (a : Nat) : (s.setDraws a).draws = a := rfl

end Sys2Proof.Machine
end

