-- ==== Sys2Proof/Laws/Ops.lean ====
section
/-! SUPPORT. One lemma per shared operation that says once what it does, for later proofs to cite. -/

namespace Sys2Proof.Machine

variable (s : State)

/-! ### General registers -/

theorem State.reg_setReg (x z : RegIdx) (b : Byte) : (s.setReg x b).reg z = if z = x then b else s.reg z := by
  simp only [State.reg, State.setReg, State.setV_v, Vector.getElem_set, Fin.ext_iff, eq_comm (a := z.val)]

@[simp] theorem State.reg_setReg_same (x : RegIdx) (b : Byte) : (s.setReg x b).reg x = b := by
  rw [State.reg_setReg, if_pos rfl]

theorem State.reg_setReg_other {x z : RegIdx} (h : z ≠ x) (b : Byte) : (s.setReg x b).reg z = s.reg z := by
  rw [State.reg_setReg, if_neg h]

@[simp] theorem State.setReg_config (x : RegIdx) (b : Byte) : (s.setReg x b).config = s.config := rfl
@[simp] theorem State.setReg_mem (x : RegIdx) (b : Byte) : (s.setReg x b).mem = s.mem := rfl
@[simp] theorem State.setReg_i (x : RegIdx) (b : Byte) : (s.setReg x b).i = s.i := rfl
@[simp] theorem State.setReg_pc (x : RegIdx) (b : Byte) : (s.setReg x b).pc = s.pc := rfl
@[simp] theorem State.setReg_stack (x : RegIdx) (b : Byte) : (s.setReg x b).stack = s.stack := rfl
@[simp] theorem State.setReg_dt (x : RegIdx) (b : Byte) : (s.setReg x b).dt = s.dt := rfl
@[simp] theorem State.setReg_st (x : RegIdx) (b : Byte) : (s.setReg x b).st = s.st := rfl
@[simp] theorem State.setReg_fb (x : RegIdx) (b : Byte) : (s.setReg x b).fb = s.fb := rfl
@[simp] theorem State.setReg_key (x : RegIdx) (b : Byte) : (s.setReg x b).key = s.key := rfl
@[simp] theorem State.setReg_wait (x : RegIdx) (b : Byte) : (s.setReg x b).wait = s.wait := rfl
@[simp] theorem State.setReg_dirty (x : RegIdx) (b : Byte) : (s.setReg x b).dirty = s.dirty := rfl
@[simp] theorem State.setReg_draws (x : RegIdx) (b : Byte) : (s.setReg x b).draws = s.draws := rfl

@[simp] theorem State.reg_setMem (m : Memory) (z : RegIdx) : (s.setMem m).reg z = s.reg z := rfl
@[simp] theorem State.reg_setI (w : Word) (z : RegIdx) : (s.setI w).reg z = s.reg z := rfl
@[simp] theorem State.reg_setPc (w : Word) (z : RegIdx) : (s.setPc w).reg z = s.reg z := rfl
@[simp] theorem State.reg_setStack (l : List Word) (z : RegIdx) : (s.setStack l).reg z = s.reg z := rfl
@[simp] theorem State.reg_setDt (b : Byte) (z : RegIdx) : (s.setDt b).reg z = s.reg z := rfl
@[simp] theorem State.reg_setSt (b : Byte) (z : RegIdx) : (s.setSt b).reg z = s.reg z := rfl
@[simp] theorem State.reg_setFb (f : Framebuffer) (z : RegIdx) : (s.setFb f).reg z = s.reg z := rfl
@[simp] theorem State.reg_setKey (k : Vector Bool 16) (z : RegIdx) : (s.setKey k).reg z = s.reg z := rfl
@[simp] theorem State.reg_setWait (w : Option RegIdx) (z : RegIdx) : (s.setWait w).reg z = s.reg z := rfl
@[simp] theorem State.reg_setDirty (b : Bool) (z : RegIdx) : (s.setDirty b).reg z = s.reg z := rfl
@[simp] theorem State.reg_setDraws (n : Nat) (z : RegIdx) : (s.setDraws n).reg z = s.reg z := rfl

/-- A register reads the same in states with the same register file. -/
theorem State.reg_congr {s t : State} (h : t.v = s.v) (z : RegIdx) : t.reg z = s.reg z := by
  simp only [State.reg, h]

/-- The two writes of `8XY4`, `8XY5`, `8XY7`: VF is the flag, whichever register X is (R103). -/
theorem State.reg_writeThenFlag (x z : RegIdx) (r f : Byte) :
    (s.writeThenFlag x r f).reg z = if z = VF then f else if z = x then r else s.reg z := by
  simp only [State.writeThenFlag, State.reg_setReg]

/-- The two writes of `8XY6`, `8XYE`: X is the result, also when X = F (R103). -/
theorem State.reg_flagThenWrite (x z : RegIdx) (r f : Byte) :
    (s.flagThenWrite x r f).reg z = if z = x then r else if z = VF then f else s.reg z := by
  simp only [State.flagThenWrite, State.reg_setReg]

@[simp] theorem State.firstRegs_length (x : RegIdx) : (s.firstRegs x).length = x.val + 1 := by
  simp [State.firstRegs]

/-- The k-th byte of V0..VX is Vk. -/
theorem State.firstRegs_getD (x k : RegIdx) (h : k.val ≤ x.val) : (s.firstRegs x).getD k.val 0 = s.reg k := by
  have : k.val < x.val + 1 := by omega
  simp [State.firstRegs, State.reg, List.getD_eq_getElem?_getD, this]

/-- What `FX65` leaves in each register. -/
theorem State.reg_setFirstRegs (bs : List Byte) (z : RegIdx) :
    (s.setFirstRegs bs).reg z = if z.val < bs.length then bs.getD z.val 0 else s.reg z := by
  simp only [State.reg, State.setFirstRegs, State.setV_v, Vector.getElem_ofFn]

@[simp] theorem State.setFirstRegs_config (bs : List Byte) : (s.setFirstRegs bs).config = s.config := rfl
@[simp] theorem State.setFirstRegs_mem (bs : List Byte) : (s.setFirstRegs bs).mem = s.mem := rfl
@[simp] theorem State.setFirstRegs_i (bs : List Byte) : (s.setFirstRegs bs).i = s.i := rfl
@[simp] theorem State.setFirstRegs_pc (bs : List Byte) : (s.setFirstRegs bs).pc = s.pc := rfl
@[simp] theorem State.setFirstRegs_stack (bs : List Byte) : (s.setFirstRegs bs).stack = s.stack := rfl
@[simp] theorem State.setFirstRegs_dt (bs : List Byte) : (s.setFirstRegs bs).dt = s.dt := rfl
@[simp] theorem State.setFirstRegs_st (bs : List Byte) : (s.setFirstRegs bs).st = s.st := rfl
@[simp] theorem State.setFirstRegs_fb (bs : List Byte) : (s.setFirstRegs bs).fb = s.fb := rfl
@[simp] theorem State.setFirstRegs_key (bs : List Byte) : (s.setFirstRegs bs).key = s.key := rfl
@[simp] theorem State.setFirstRegs_wait (bs : List Byte) : (s.setFirstRegs bs).wait = s.wait := rfl
@[simp] theorem State.setFirstRegs_dirty (bs : List Byte) : (s.setFirstRegs bs).dirty = s.dirty := rfl
@[simp] theorem State.setFirstRegs_draws (bs : List Byte) : (s.setFirstRegs bs).draws = s.draws := rfl
@[simp] theorem State.readByte_setFirstRegs (bs : List Byte) (a : Nat) : (s.setFirstRegs bs).readByte a = s.readByte a := rfl

/-! ### The program counter -/

@[simp] theorem State.advance_eq : s.advance = s.setPc (s.pc + 2) := rfl
@[simp] theorem State.skip_eq : s.skip = s.setPc (s.pc + 4) := rfl
@[simp] theorem State.jump_eq (w : Word) : s.jump w = s.setPc w := rfl

/-- A skip adds 4 or 2 to PC and changes nothing else. -/
theorem State.skipIf_eq (c : Bool) : s.skipIf c = s.setPc (s.pc + if c then 4 else 2) := by
  cases c <;> rfl

/-- PC + 2 as an integer, where an instruction executes (R70). -/
theorem pc_add_two {w : Word} (h : w.toNat ≤ Config.pcMax) : (w + 2).toNat = w.toNat + 2 := by
  have lit : (2 : Word).toNat = 2 := rfl
  simp only [Config.pcMax] at h
  simp only [BitVec.toNat_add, lit]
  omega

/-- PC + 4 as an integer, where an instruction executes (R70). -/
theorem pc_add_four {w : Word} (h : w.toNat ≤ Config.pcMax) : (w + 4).toNat = w.toNat + 4 := by
  have lit : (4 : Word).toNat = 4 := rfl
  simp only [Config.pcMax] at h
  simp only [BitVec.toNat_add, lit]
  omega

@[simp] theorem addrOf_toNat (nnn : Addr12) : (addrOf nnn).toNat = nnn.toNat := by
  simp only [addrOf, BitVec.toNat_setWidth]
  omega

/-- V0 + NNN never leaves 16 bits (R87). -/
theorem offsetAddr_toNat (b : Byte) (nnn : Addr12) : (offsetAddr b nnn).toNat = b.toNat + nnn.toNat := by
  simp only [offsetAddr, BitVec.toNat_add, addrOf_toNat, BitVec.toNat_setWidth]
  omega

/-! ### The call stack -/

/-- `push` succeeds exactly when the stack is not full, and then the word is on top. -/
theorem State.push_ok {cap : Nat} {w : Word} {t : State} :
    s.push cap w = .ok t ↔ s.stack.length < cap ∧ t = s.setStack (w :: s.stack) := by
  unfold State.push
  split <;> simp_all [eq_comm]

/-- `pop` succeeds exactly when the stack is not empty. -/
theorem State.pop_ok {w : Word} {t : State} :
    s.pop = .ok (w, t) ↔ ∃ rest, s.stack = w :: rest ∧ t = s.setStack rest := by
  unfold State.pop
  split <;> simp_all [eq_comm]

/-! ### Memory accesses of instructions -/

@[simp] theorem State.readByte_setMem (m : Memory) (a : Nat) : (s.setMem m).readByte a = Memory.read s.config.font m a := rfl
@[simp] theorem State.readByte_setV (v : Vector Byte 16) (a : Nat) : (s.setV v).readByte a = s.readByte a := rfl
@[simp] theorem State.readByte_setI (w : Word) (a : Nat) : (s.setI w).readByte a = s.readByte a := rfl
@[simp] theorem State.readByte_setPc (w : Word) (a : Nat) : (s.setPc w).readByte a = s.readByte a := rfl
@[simp] theorem State.readByte_setStack (l : List Word) (a : Nat) : (s.setStack l).readByte a = s.readByte a := rfl
@[simp] theorem State.readByte_setDt (b : Byte) (a : Nat) : (s.setDt b).readByte a = s.readByte a := rfl
@[simp] theorem State.readByte_setSt (b : Byte) (a : Nat) : (s.setSt b).readByte a = s.readByte a := rfl
@[simp] theorem State.readByte_setFb (f : Framebuffer) (a : Nat) : (s.setFb f).readByte a = s.readByte a := rfl
@[simp] theorem State.readByte_setKey (k : Vector Bool 16) (a : Nat) : (s.setKey k).readByte a = s.readByte a := rfl
@[simp] theorem State.readByte_setWait (w : Option RegIdx) (a : Nat) : (s.setWait w).readByte a = s.readByte a := rfl
@[simp] theorem State.readByte_setDirty (b : Bool) (a : Nat) : (s.setDirty b).readByte a = s.readByte a := rfl
@[simp] theorem State.readByte_setDraws (n : Nat) (a : Nat) : (s.setDraws n).readByte a = s.readByte a := rfl
@[simp] theorem State.readByte_setReg (x : RegIdx) (b : Byte) (a : Nat) : (s.setReg x b).readByte a = s.readByte a := rfl

/-- A byte reads the same in states of one machine with the same memory. -/
theorem State.readByte_congr {s t : State} (h : t.mem = s.mem) (hc : t.config = s.config) (a : Nat) :
    t.readByte a = s.readByte a := by
  simp only [State.readByte, h, hc]

@[simp] theorem State.readBytes_length (base len : Nat) : (s.readBytes base len).length = len :=
  Machine.readBytes_length ..

/-- The k-th of the bytes read from `base`. -/
theorem State.readBytes_getD {base len k : Nat} (h : k < len) :
    (s.readBytes base len).getD k 0 = s.readByte (base + k) :=
  Machine.readBytes_getD _ _ _ _ h

/-- READ AFTER WRITE in a state: the listed bytes from `base`, every other byte as it was. -/
theorem State.readByte_writeBytes (hs : s.canonical) {base : Nat} {bs : List Byte}
    (h : base + bs.length ≤ Config.memSize) (a : Nat) :
    (s.writeBytes base bs).readByte a =
      if base ≤ a ∧ a < base + bs.length then bs.getD (a - base) 0 else s.readByte a :=
  read_writeBytes hs base bs h a

/-- A write inside the address space keeps the canonical form. -/
theorem State.canonical_writeBytes (hs : s.canonical) {base : Nat} {bs : List Byte}
    (h : base + bs.length ≤ Config.memSize) : (s.writeBytes base bs).canonical :=
  wf_writeBytes hs base bs h

@[simp] theorem State.writeBytes_config (base : Nat) (bs : List Byte) : (s.writeBytes base bs).config = s.config := rfl
@[simp] theorem State.writeBytes_v (base : Nat) (bs : List Byte) : (s.writeBytes base bs).v = s.v := rfl
@[simp] theorem State.writeBytes_i (base : Nat) (bs : List Byte) : (s.writeBytes base bs).i = s.i := rfl
@[simp] theorem State.writeBytes_pc (base : Nat) (bs : List Byte) : (s.writeBytes base bs).pc = s.pc := rfl
@[simp] theorem State.writeBytes_stack (base : Nat) (bs : List Byte) : (s.writeBytes base bs).stack = s.stack := rfl
@[simp] theorem State.writeBytes_dt (base : Nat) (bs : List Byte) : (s.writeBytes base bs).dt = s.dt := rfl
@[simp] theorem State.writeBytes_st (base : Nat) (bs : List Byte) : (s.writeBytes base bs).st = s.st := rfl
@[simp] theorem State.writeBytes_fb (base : Nat) (bs : List Byte) : (s.writeBytes base bs).fb = s.fb := rfl
@[simp] theorem State.writeBytes_key (base : Nat) (bs : List Byte) : (s.writeBytes base bs).key = s.key := rfl
@[simp] theorem State.writeBytes_wait (base : Nat) (bs : List Byte) : (s.writeBytes base bs).wait = s.wait := rfl
@[simp] theorem State.writeBytes_dirty (base : Nat) (bs : List Byte) : (s.writeBytes base bs).dirty = s.dirty := rfl
@[simp] theorem State.writeBytes_draws (base : Nat) (bs : List Byte) : (s.writeBytes base bs).draws = s.draws := rfl
@[simp] theorem State.reg_writeBytes (base : Nat) (bs : List Byte) (z : RegIdx) :
    (s.writeBytes base bs).reg z = s.reg z := rfl

/-- A write of bytes changes memory alone. -/
theorem State.writeBytes_eq (base : Nat) (bs : List Byte) :
    s.writeBytes base bs = s.setMem (s.writeBytes base bs).mem := rfl

/-- A load succeeds exactly when every address is in range (R34). -/
theorem State.loadBytes_ok {base len : Nat} {bs : List Byte} :
    s.loadBytes base len = .ok bs ↔ inRange base len = true ∧ bs = s.readBytes base len := by
  unfold State.loadBytes
  cases inRange base len <;> simp [eq_comm]

/-- A store succeeds exactly when every address is in range (R34), and it writes memory alone. -/
theorem State.storeBytes_ok {base : Nat} {bs : List Byte} {t : State} :
    s.storeBytes base bs = .ok t ↔
      inRange base bs.length = true ∧ t = s.writeBytes base bs := by
  unfold State.storeBytes
  cases inRange base bs.length <;> simp [eq_comm]

/-- The bounds rule for an access of at least one byte: the last address is at most 4095 (R34). -/
theorem inRange_iff {base len : Nat} (h : 0 < len) : inRange base len = true ↔ base + len - 1 ≤ 4095 := by
  rw [inRange, Bool.or_eq_true, decide_eq_true_eq, decide_eq_true_eq, Config.memSize]
  omega

theorem inRange_le {base len : Nat} (h : inRange base len = true) : len = 0 ∨ base + len ≤ Config.memSize := by
  simpa [inRange] using h

/-! ### Operands and flags -/

theorem keyOperand_ok {b : Byte} {k : KeyIdx} : keyOperand b = .ok k ↔ k.val = b.toNat := by
  unfold keyOperand
  split
  · simp [Fin.ext_iff, eq_comm]
  · have := k.isLt
    simp
    omega

theorem keyOperand_error {b : Byte} {kind : Fault} :
    keyOperand b = .error kind ↔ 15 < b.toNat ∧ kind = oobKind := by
  unfold keyOperand
  split
  · simp
    omega
  · simp [eq_comm]
    omega

theorem glyphAddr_ok {b : Byte} {a : Word} : glyphAddr b = .ok a ↔ b.toNat ≤ 15 ∧ a.toNat = 5 * b.toNat := by
  unfold glyphAddr
  split
  · simp only [Except.ok.injEq, Config.glyphLen]
    constructor
    · rintro rfl
      simp only [BitVec.toNat_ofNat]
      omega
    · rintro ⟨-, h⟩
      apply BitVec.eq_of_toNat_eq
      simp only [BitVec.toNat_ofNat]
      omega
  · simp
    omega

theorem glyphAddr_error {b : Byte} {kind : Fault} :
    glyphAddr b = .error kind ↔ 15 < b.toNat ∧ kind = .invalidFontIndex := by
  unfold glyphAddr
  split
  · simp
    omega
  · simp [eq_comm]
    omega

@[simp] theorem decimalDigits_length (b : Byte) : (decimalDigits b).length = 3 := rfl

theorem flagByte_toNat (b : Bool) : (flagByte b).toNat = if b then 1 else 0 := by
  cases b <;> rfl

theorem carryFlag_toNat (a b : Byte) : (carryFlag a b).toNat = if a.toNat + b.toNat > 255 then 1 else 0 := by
  simp only [carryFlag, flagByte_toNat, decide_eq_true_eq]

theorem noBorrowFlag_toNat (a b : Byte) : (noBorrowFlag a b).toNat = if a.toNat ≥ b.toNat then 1 else 0 := by
  simp only [noBorrowFlag, flagByte_toNat, decide_eq_true_eq]

theorem lowBitFlag_toNat (a : Byte) : (lowBitFlag a).toNat = a.toNat % 2 := by
  revert a; decide

theorem highBitFlag_toNat (a : Byte) : (highBitFlag a).toNat = a.toNat / 128 := by
  revert a; decide

end Sys2Proof.Machine
end

