-- ==== Sys2Proof/Laws/PerInstr.lean ====
section
/-! SUPPORT. A fact about every instruction as syntax, one lemma per constructor: its encoding is a word
that its own row of the opcode map admits, and the row is in the map (R54). -/

namespace Sys2Proof.Laws.OpcodeRow

/-- The word of the instruction is admitted by its row of the opcode map. -/
def Statement (i : Instr) : Prop := i.row ∈ opcodeRows ∧ i.row.admits (encode i) = true

/-- The row of an instruction is a row of the map. -/
theorem row_mem (i : Instr) : i.row ∈ opcodeRows := by
  cases i <;> simp [Instr.row, opcodeRows]

theorem rowA {c : Nat} (hc : c < 16) {v : Word} (hv : v.toNat = c * 4096) (nnn : Addr12) :
    (OpRow.mk 0xF000 v).admits (packA c nnn) = true := by
  have := nnn.isLt
  rw [admits_F000, packA_toNat hc, hv]
  omega

theorem rowXI {c : Nat} (hc : c < 16) {v : Word} (hv : v.toNat = c * 4096) (x : RegIdx) (nn : Byte) :
    (OpRow.mk 0xF000 v).admits (packXI c x nn) = true := by
  have := nn.isLt
  rw [admits_F000, packXI_toNat hc, hv]
  omega

theorem rowX {c : Nat} (hc : c < 16) {v : Word} (x : RegIdx) (nn : Byte) (hv : v.toNat = c * 4096 + nn.toNat) :
    (OpRow.mk 0xF0FF v).admits (packXI c x nn) = true := by
  have := nn.isLt
  rw [admits_F0FF, packXI_toNat hc, hv]
  omega

theorem rowXY {c : Nat} (hc : c < 16) {v : Word} (x y : RegIdx) (n : Fin 16) (hv : v.toNat = c * 4096 + n.val) :
    (OpRow.mk 0xF00F v).admits (packXY c x y n) = true := by
  rw [admits_F00F, packXY_toNat hc, hv]
  omega

theorem rowXYN {c : Nat} (hc : c < 16) {v : Word} (hv : v.toNat = c * 4096) (x y : RegIdx) (n : Fin 16) :
    (OpRow.mk 0xF000 v).admits (packXY c x y n) = true := by
  rw [admits_F000, packXY_toNat hc, hv]
  omega

theorem cls : Statement .cls := ⟨row_mem _, by decide⟩
theorem ret : Statement .ret := ⟨row_mem _, by decide⟩
theorem jp (nnn : Addr12) : Statement (.jp nnn) := ⟨row_mem _, rowA (by decide) rfl nnn⟩
theorem call (nnn : Addr12) : Statement (.call nnn) := ⟨row_mem _, rowA (by decide) rfl nnn⟩
theorem seImm (x : RegIdx) (nn : Byte) : Statement (.seImm x nn) := ⟨row_mem _, rowXI (by decide) rfl x nn⟩
theorem sneImm (x : RegIdx) (nn : Byte) : Statement (.sneImm x nn) := ⟨row_mem _, rowXI (by decide) rfl x nn⟩
theorem seReg (x y : RegIdx) : Statement (.seReg x y) := ⟨row_mem _, rowXY (by decide) x y 0 rfl⟩
theorem ldImm (x : RegIdx) (nn : Byte) : Statement (.ldImm x nn) := ⟨row_mem _, rowXI (by decide) rfl x nn⟩
theorem addImm (x : RegIdx) (nn : Byte) : Statement (.addImm x nn) := ⟨row_mem _, rowXI (by decide) rfl x nn⟩
theorem ldReg (x y : RegIdx) : Statement (.ldReg x y) := ⟨row_mem _, rowXY (by decide) x y 0 rfl⟩
theorem orReg (x y : RegIdx) : Statement (.orReg x y) := ⟨row_mem _, rowXY (by decide) x y 1 rfl⟩
theorem andReg (x y : RegIdx) : Statement (.andReg x y) := ⟨row_mem _, rowXY (by decide) x y 2 rfl⟩
theorem xorReg (x y : RegIdx) : Statement (.xorReg x y) := ⟨row_mem _, rowXY (by decide) x y 3 rfl⟩
theorem addReg (x y : RegIdx) : Statement (.addReg x y) := ⟨row_mem _, rowXY (by decide) x y 4 rfl⟩
theorem subReg (x y : RegIdx) : Statement (.subReg x y) := ⟨row_mem _, rowXY (by decide) x y 5 rfl⟩
theorem shr (x y : RegIdx) : Statement (.shr x y) := ⟨row_mem _, rowXY (by decide) x y 6 rfl⟩
theorem subnReg (x y : RegIdx) : Statement (.subnReg x y) := ⟨row_mem _, rowXY (by decide) x y 7 rfl⟩
theorem shl (x y : RegIdx) : Statement (.shl x y) := ⟨row_mem _, rowXY (by decide) x y 14 rfl⟩
theorem sneReg (x y : RegIdx) : Statement (.sneReg x y) := ⟨row_mem _, rowXY (by decide) x y 0 rfl⟩
theorem ldI (nnn : Addr12) : Statement (.ldI nnn) := ⟨row_mem _, rowA (by decide) rfl nnn⟩
theorem jpV0 (nnn : Addr12) : Statement (.jpV0 nnn) := ⟨row_mem _, rowA (by decide) rfl nnn⟩
theorem rnd (x : RegIdx) (nn : Byte) : Statement (.rnd x nn) := ⟨row_mem _, rowXI (by decide) rfl x nn⟩
theorem drw (x y : RegIdx) (n : RowCount) : Statement (.drw x y n) := ⟨row_mem _, rowXYN (by decide) rfl x y n⟩
theorem skp (x : RegIdx) : Statement (.skp x) := ⟨row_mem _, rowX (by decide) x _ rfl⟩
theorem sknp (x : RegIdx) : Statement (.sknp x) := ⟨row_mem _, rowX (by decide) x _ rfl⟩
theorem ldFromDT (x : RegIdx) : Statement (.ldFromDT x) := ⟨row_mem _, rowX (by decide) x _ rfl⟩
theorem ldKey (x : RegIdx) : Statement (.ldKey x) := ⟨row_mem _, rowX (by decide) x _ rfl⟩
theorem ldDT (x : RegIdx) : Statement (.ldDT x) := ⟨row_mem _, rowX (by decide) x _ rfl⟩
theorem ldST (x : RegIdx) : Statement (.ldST x) := ⟨row_mem _, rowX (by decide) x _ rfl⟩
theorem addI (x : RegIdx) : Statement (.addI x) := ⟨row_mem _, rowX (by decide) x _ rfl⟩
theorem ldF (x : RegIdx) : Statement (.ldF x) := ⟨row_mem _, rowX (by decide) x _ rfl⟩
theorem ldB (x : RegIdx) : Statement (.ldB x) := ⟨row_mem _, rowX (by decide) x _ rfl⟩
theorem storeRegs (x : RegIdx) : Statement (.storeRegs x) := ⟨row_mem _, rowX (by decide) x _ rfl⟩
theorem loadRegs (x : RegIdx) : Statement (.loadRegs x) := ⟨row_mem _, rowX (by decide) x _ rfl⟩

end Sys2Proof.Laws.OpcodeRow
end

