-- ==== Sys2Proof/Laws/Raster.lean ====
section
/-! SUPPORT. What the framebuffer operations do (R8, R120 to R124). -/

namespace Sys2Proof.Machine

/-- READ AFTER WRITE of a pixel. -/
theorem pixel_setPixel (f : Framebuffer) (x x' : Column) (y y' : Row) (b : Bool) :
    (f.setPixel x y b).pixel x' y' = if x' = x ∧ y' = y then b else f.pixel x' y' := by
  simp only [Framebuffer.pixel, Framebuffer.setPixel, Vector.getElem_set, Fin.ext_iff]
  by_cases hy : y.val = y'.val
  · obtain rfl : y = y' := Fin.ext hy
    simp [Vector.getElem_set, eq_comm]
  · have : y'.val ≠ y.val := fun h => hy h.symm
    simp [hy, this]

@[simp] theorem pixel_clear (x : Column) (y : Row) : Framebuffer.clear.pixel x y = false := by
  simp [Framebuffer.pixel, Framebuffer.clear]

/-- Framebuffers with the same pixels are equal. -/
theorem framebuffer_ext {f g : Framebuffer} (h : ∀ x y, f.pixel x y = g.pixel x y) : f = g :=
  Vector.ext fun y hy => Vector.ext fun x hx => h ⟨x, hx⟩ ⟨y, hy⟩

/-- What a list of set sprite bits leaves in a pixel: it is toggled once per time it is named. -/
theorem pixel_foldl_plot (ps : List (Column × Row)) (acc : Framebuffer × Bool) (x : Column) (y : Row) :
    (ps.foldl plot acc).1.pixel x y = (acc.1.pixel x y ^^ decide (ps.count (x, y) % 2 = 1)) := by
  induction ps generalizing acc with
  | nil => simp
  | cons p ps ih =>
    rw [List.foldl_cons, ih, List.count_cons]
    simp only [plot, pixel_setPixel]
    by_cases hp : p = (x, y)
    · subst hp
      rcases Nat.mod_two_eq_zero_or_one (ps.count (x, y)) with h | h <;>
        simp [h, Nat.add_mod]
    · have h1 : ¬(x = p.1 ∧ y = p.2) := fun h => hp (Prod.ext h.1.symm h.2.symm)
      have h2 : (p == (x, y)) = false := by simpa using hp
      simp [h1, h2]

/-- The set bits of a row. -/
theorem mem_litColumns {row : Byte} {c : Nat} : c ∈ litColumns row ↔ c < 8 ∧ row.getLsbD (7 - c) = true := by
  simp [litColumns]

/-- Under wrap-around every sprite bit has the pixel modulo 64 and 32 (R123). -/
theorem targetPixel_wrap {x0 y0 c r : Nat} {p : Column × Row} :
    targetPixel .wrap x0 y0 c r = some p ↔ p.1.val = (x0 + c) % 64 ∧ p.2.val = (y0 + r) % 32 := by
  rw [targetPixel, Option.some.injEq, Prod.ext_iff, Fin.ext_iff, Fin.ext_iff]
  exact and_congr eq_comm eq_comm

/-- Under clipping a sprite bit has a pixel only where it lies on the grid (D1). -/
theorem targetPixel_clip {x0 y0 c r : Nat} {p : Column × Row} :
    targetPixel .clip x0 y0 c r = some p ↔ p.1.val = x0 + c ∧ p.2.val = y0 + r := by
  rw [targetPixel]
  split
  · rw [Option.some.injEq, Prod.ext_iff, Fin.ext_iff, Fin.ext_iff]
    exact and_congr eq_comm eq_comm
  · have h1 := p.1.isLt
    have h2 := p.2.isLt
    simp only [reduceCtorEq, false_iff]
    omega

/-- Under either edge a target pixel is the sprite bit's place modulo 64 and 32. -/
theorem targetPixel_mod {edge : SpriteEdge} {x0 y0 c r : Nat} {p : Column × Row}
    (h : targetPixel edge x0 y0 c r = some p) : p.1.val = (x0 + c) % 64 ∧ p.2.val = (y0 + r) % 32 := by
  cases edge with
  | wrap => exact targetPixel_wrap.mp h
  | clip =>
    obtain ⟨h1, h2⟩ := targetPixel_clip.mp h
    have := p.1.isLt
    have := p.2.isLt
    omega

theorem mem_rowTargets {edge : SpriteEdge} {x0 y0 r : Nat} {row : Byte} {p : Column × Row} :
    p ∈ rowTargets edge x0 y0 r row ↔
      ∃ c < 8, row.getLsbD (7 - c) = true ∧ targetPixel edge x0 y0 c r = some p := by
  simp only [rowTargets, List.mem_filterMap, mem_litColumns, and_assoc]

/-- The target pixels of a sprite (R122, R123). -/
theorem mem_spriteTargets {edge : SpriteEdge} {x0 y0 r : Nat} {rows : List Byte} {p : Column × Row} :
    p ∈ spriteTargets edge x0 y0 r rows ↔ ∃ k < rows.length, ∃ c < 8,
      (rows.getD k 0).getLsbD (7 - c) = true ∧ targetPixel edge x0 y0 c (r + k) = some p := by
  induction rows generalizing r with
  | nil => simp [spriteTargets]
  | cons row rows ih =>
    rw [spriteTargets, List.mem_append, mem_rowTargets, ih]
    constructor
    · rintro (⟨c, hc, hb, h⟩ | ⟨k, hk, c, hc, hb, h⟩)
      · exact ⟨0, Nat.succ_pos _, c, hc, hb, h⟩
      · exact ⟨k + 1, Nat.succ_lt_succ hk, c, hc, by rwa [List.getD_cons_succ],
          by rw [← h, Nat.add_right_comm, Nat.add_assoc]⟩
    · rintro ⟨k, hk, c, hc, hb, h⟩
      cases k with
      | zero => exact .inl ⟨c, hc, hb, h⟩
      | succ k =>
        exact .inr ⟨k, Nat.lt_of_succ_lt_succ hk, c, hc, by rwa [List.getD_cons_succ] at hb,
          by rw [← h, Nat.add_right_comm, Nat.add_assoc]⟩

/-- A sprite of at most 32 rows reaches no pixel twice: no two of its bits share a target. -/
theorem nodup_spriteTargets (edge : SpriteEdge) (x0 y0 r : Nat) (rows : List Byte) (h : rows.length ≤ 32) :
    (spriteTargets edge x0 y0 r rows).Nodup := by
  induction rows generalizing r with
  | nil => exact List.nodup_nil
  | cons row rows ih =>
    rw [List.length_cons] at h
    rw [spriteTargets, List.nodup_append]
    refine ⟨?_, ih _ (by omega), ?_⟩
    · rw [rowTargets, List.Nodup, List.pairwise_filterMap]
      have distinct : (litColumns row).Pairwise (· ≠ ·) := List.nodup_range.filter _
      refine distinct.imp_of_mem fun {a b} ha hb hab p hp q hq hpq => ?_
      subst hpq
      have h1 := (mem_litColumns.mp ha).1
      have h2 := (mem_litColumns.mp hb).1
      have h3 := (targetPixel_mod hp).1.symm.trans (targetPixel_mod hq).1
      omega
    · rintro p hp q hq hpq
      subst hpq
      obtain ⟨_, _, _, h1⟩ := mem_rowTargets.mp hp
      obtain ⟨k, hk, _, _, _, h2⟩ := mem_spriteTargets.mp hq
      have h3 := (targetPixel_mod h1).2.symm.trans (targetPixel_mod h2).2
      omega

/-- Drawing names each pixel of a list without repeats once: those pixels are toggled (R122). -/
theorem pixel_foldl_plot_nodup {ps : List (Column × Row)} (h : ps.Nodup) (acc : Framebuffer × Bool)
    (x : Column) (y : Row) :
    (ps.foldl plot acc).1.pixel x y = (acc.1.pixel x y ^^ decide ((x, y) ∈ ps)) := by
  rw [pixel_foldl_plot, h.count]
  by_cases hp : (x, y) ∈ ps <;> simp [hp]

/-- The collision of a list of pixels without repeats: one of them was 1 before (R124). -/
theorem collision_foldl_plot {ps : List (Column × Row)} (h : ps.Nodup) (f : Framebuffer) (b : Bool) :
    (ps.foldl plot (f, b)).2 = true ↔ b = true ∨ ∃ p ∈ ps, f.pixel p.1 p.2 = true := by
  induction ps generalizing f b with
  | nil => simp
  | cons p ps ih =>
    have hp := (List.nodup_cons.mp h).1
    rw [List.foldl_cons, plot, ih (List.nodup_cons.mp h).2, Bool.or_eq_true, List.exists_mem_cons_iff,
      or_assoc]
    refine or_congr_right (or_congr_right (exists_congr fun q => and_congr_right fun hq => ?_))
    rw [pixel_setPixel, if_neg]
    rintro ⟨h1, h2⟩
    exact hp (Prod.ext h1 h2 ▸ hq)

/-- `landsOn`, in which claims speak of a sprite bit's pixel, is the rasterizer's target (R123, D1). -/
theorem landsOn_iff {edge : SpriteEdge} {x0 y0 c r : Nat} {px : Column} {py : Row} :
    landsOn edge x0 y0 c r px py ↔ targetPixel edge x0 y0 c r = some (px, py) := by
  cases edge with
  | wrap => exact (targetPixel_wrap (p := (px, py))).symm
  | clip => exact (targetPixel_clip (p := (px, py))).symm

/-- The pixels a sprite covers are the targets of the rows read from memory (R122). -/
theorem spriteCovers_iff (s : State) (base x0 y0 n : Nat) (px : Column) (py : Row) :
    s.spriteCovers base x0 y0 n px py ↔
      (px, py) ∈ spriteTargets s.config.spriteEdge x0 y0 0 (s.readBytes base n) := by
  rw [mem_spriteTargets, State.readBytes_length, State.spriteCovers]
  refine exists_congr fun k => and_congr_right fun hk => ?_
  rw [State.readBytes_getD _ hk, Nat.zero_add]
  simp only [landsOn_iff]

end Sys2Proof.Machine
end

