-- ==== Sys2Proof/Laws/Step.lean ====
section
/-! SUPPORT. Once what a step can do (R65, R66, R69, R71). -/

namespace Sys2Proof.Machine

/-- A blocked core's step changes nothing (R66). -/
theorem step_blocked {s : State} {x : RegIdx} (h : s.wait = some x) : step s = .next s := by
  simp [step, h]

/-- A Running core's step runs the instruction it fetched (R69). -/
theorem step_fetched {s : State} {i : Instr} (hw : s.wait = none) (hf : s.fetch = .ok i) :
    step s = exec i s := by
  simp [step, hw, hf]

/-- A Running core that fetches no instruction raises the fetch's error (R67, R69). -/
theorem step_unfetched {s : State} {kind : Fault} (hw : s.wait = none) (hf : s.fetch = .error kind) :
    step s = .fault kind := by
  simp [step, hw, hf, raise]

/-- The inversion of a step that answers a next state: it was blocked, or it ran an instruction. -/
theorem step_next {s t : State} (h : step s = .next t) :
    (s.wait.isSome ∧ t = s) ∨ (s.wait = none ∧ ∃ i, s.fetch = .ok i ∧ exec i s = .next t) := by
  unfold step at h
  split at h
  · exact .inl ⟨by simp [*], by simpa using h.symm⟩
  · split at h
    · exact .inr ⟨by assumption, _, by assumption, h⟩
    · simp [raise] at h

/-- A fetch gives an instruction exactly when PC is in range and the word there decodes to it. -/
theorem fetch_ok {s : State} {i : Instr} :
    s.fetch = .ok i ↔ s.pc.toNat ≤ Config.pcMax ∧ decodeWord (s.wordAt s.pc.toNat) = .ok i := by
  unfold State.fetch
  split
  · cases decodeWord (s.wordAt s.pc.toNat) <;> simp [*]
  · simp [*]

/-- A fetch that gives none is InvalidOpcode. -/
theorem fetch_error {s : State} {kind : Fault} (h : s.fetch = .error kind) : kind = .invalidOpcode := by
  unfold State.fetch at h
  split at h
  · split at h <;> simp_all
  · simpa [oobKind] using h.symm

end Sys2Proof.Machine
end

