-- ==== Sys2Proof/Tests/Slice0.lean ====
section
/-! SUPPORT. Tests of single words and single steps, with the expected results of spec/95_test_vectors.md (the
name of the vector is in the docstring), and for every statement with hypotheses a state that meets them,
at the boundary values of its clauses. -/

namespace Sys2Proof.Machine.Tests

/-! ### Helpers -/

/-- The reset state with bytes from 0x200 on. -/
def at200 (bs : List Byte) : State := State.reset.writeBytes 0x200 bs

/-- The reset state with PC and the bytes there. -/
def atPc (pc : Nat) (bs : List Byte) : State :=
  (State.reset.setPc (BitVec.ofNat 16 pc)).writeBytes pc bs

/-- The reset state of a machine with other parameters than the spec's: a stack of two, a font of 0xAA, and
clipping; with bytes from 0x200 on. -/
def otherAt200 (bs : List Byte) : State :=
  (State.resetWith ⟨2, Vector.replicate 80 0xAA, .clip⟩).writeBytes 0x200 bs

/-- The outcome is a next state of which p holds. -/
def goes (r : Result) (p : State → Bool) : Bool :=
  match r with
  | .next t => p t
  | .fault _ => false
  | .refused _ => false

/-- The kind of a fatal outcome. -/
def kindOf (r : Result) : Option Fault :=
  match r with
  | .next _ => none
  | .fault kind => some kind
  | .refused _ => none

/-- An instruction, if a word decodes to one. -/
def instrOf (w : Word) : Option Instr := (decodeWord w).toOption

/-- A full stack has 16 entries; this is one of n entries, all 0x202. -/
def deep (n : Nat) : List Word := List.replicate n 0x202

/-! ### Ill-formed words are refused (R55, vector list 2.1) -/

theorem test_wf_cat0 : wordDefined 0x0000 = false ∧ wordDefined 0x00E1 = false ∧ wordDefined 0x0FFF = false := by
  decide
theorem test_wf_cat5 : wordDefined 0x5120 = true ∧ wordDefined 0x5121 = false ∧ wordDefined 0x512F = false := by
  decide
theorem test_wf_cat9 : wordDefined 0x9AB0 = true ∧ wordDefined 0x9ABF = false := by decide
theorem test_wf_cat8 : wordDefined 0x8008 = false ∧ wordDefined 0x800D = false ∧ wordDefined 0x800F = false := by
  decide
theorem test_wf_catE : wordDefined 0xE09F = false ∧ wordDefined 0xE000 = false ∧ wordDefined 0xE1A0 = false := by
  decide
theorem test_wf_catF : wordDefined 0xF000 = false ∧ wordDefined 0xF130 = false ∧ wordDefined 0xFFFF = false := by
  decide
theorem test_decode_refuses : instrOf 0x0123 = none ∧ instrOf 0x5121 = none ∧ instrOf 0x9ABF = none ∧
    instrOf 0x8AB9 = none ∧ instrOf 0xE1A0 = none ∧ instrOf 0xF085 = none := by decide
theorem test_decode_truncated : (decodeBytes [0x60]).toOption = none ∧ (decodeBytes []).toOption = none := by decide

/-! ### Each constructor's word, written out from R54 -/

theorem test_decode_cat0 : instrOf 0x00E0 = some .cls ∧ instrOf 0x00EE = some .ret := by decide
theorem test_decode_control : instrOf 0x1ABC = some (.jp 0xABC) ∧ instrOf 0x2300 = some (.call 0x300) ∧
    instrOf 0x3142 = some (.seImm 1 0x42) ∧ instrOf 0x4143 = some (.sneImm 1 0x43) ∧
    instrOf 0x5120 = some (.seReg 1 2) ∧ instrOf 0x9AB0 = some (.sneReg 0xA 0xB) ∧
    instrOf 0xBFFF = some (.jpV0 0xFFF) := by decide
theorem test_decode_imm : instrOf 0x602A = some (.ldImm 0 0x2A) ∧ instrOf 0x71FF = some (.addImm 1 0xFF) ∧
    instrOf 0xC10F = some (.rnd 1 0x0F) := by decide
theorem test_decode_logic : instrOf 0x8120 = some (.ldReg 1 2) ∧ instrOf 0x8121 = some (.orReg 1 2) ∧
    instrOf 0x8122 = some (.andReg 1 2) ∧ instrOf 0x8123 = some (.xorReg 1 2) := by decide
theorem test_decode_flags : instrOf 0x8AB4 = some (.addReg 0xA 0xB) ∧ instrOf 0x8125 = some (.subReg 1 2) ∧
    instrOf 0x8126 = some (.shr 1 2) ∧ instrOf 0x8127 = some (.subnReg 1 2) ∧
    instrOf 0x8F0E = some (.shl 0xF 0) := by decide
theorem test_decode_index : instrOf 0xA123 = some (.ldI 0x123) ∧ instrOf 0xF11E = some (.addI 1) ∧
    instrOf 0xF129 = some (.ldF 1) ∧ instrOf 0xF133 = some (.ldB 1) ∧ instrOf 0xFF55 = some (.storeRegs 0xF) ∧
    instrOf 0xF165 = some (.loadRegs 1) := by decide
theorem test_decode_screen : instrOf 0xD12F = some (.drw 1 2 0xF) := by decide
theorem test_decode_keys : instrOf 0xE09E = some (.skp 0) ∧ instrOf 0xEFA1 = some (.sknp 0xF) ∧
    instrOf 0xF10A = some (.ldKey 1) := by decide
theorem test_decode_timers : instrOf 0xF007 = some (.ldFromDT 0) ∧ instrOf 0xF215 = some (.ldDT 2) ∧
    instrOf 0xF318 = some (.ldST 3) := by decide
theorem test_encode : encode (.drw 1 2 0xF) = 0xD12F ∧ encode (.loadRegs 1) = 0xF165 ∧
    encodeBytes (.call 0x300) = [0x23, 0x00] := by decide
/-- The decoder of table words, and the row as the first instruction after reset (log 22). -/
theorem test_table_word : decodeTableWord 16 0x8AB4 = some (.addReg 0xA 0xB) ∧ decodeTableWord 16 0x5001 = none ∧
    goes (step (State.reset.withFetchWord 16 0x6A7F)) (fun t => t.reg 0xA == 0x7F) = true := by decide

/-! ### Control transfer (2.3) -/

/-- S1. -/
theorem test_reset_step : kindOf (step State.reset) = some .invalidOpcode := by decide
/-- S2, second step: the last legal PC. -/
theorem test_last_pc : goes (step (atPc 0xFFE [0x60, 0x2A])) (fun t => t.reg 0 == 0x2A && t.pc == 0x1000) = true := by
  decide
/-- F1. -/
theorem test_ret : goes (step ((atPc 0x400 [0x00, 0xEE]).setStack [0x300, 0x202]))
    (fun t => t.pc == 0x300 && t.stack == [0x202]) = true := by decide
/-- F2. -/
theorem test_ret_empty : kindOf (step (at200 [0x00, 0xEE])) = some .stackUnderflow := by decide
/-- F3. -/
theorem test_jp : goes (step (at200 [0x1A, 0xBC])) (fun t => t.pc == 0xABC) = true := by decide
/-- F7. -/
theorem test_call : goes (step ((at200 [0x23, 0x00]).setStack (deep 15)))
    (fun t => t.pc == 0x300 && t.stack == deep 16) = true := by decide
/-- F8. -/
theorem test_call_full : kindOf (step ((at200 [0x23, 0x00]).setStack (deep 16))) = some .stackOverflow := by decide
/-- F7, F8 on a machine whose STACK_CAPACITY is 2 (P5 (b): step c + 1 faults). -/
theorem test_call_other_capacity :
    goes (step ((otherAt200 [0x23, 0x00]).setStack (deep 1))) (fun t => t.stack == deep 2) = true ∧
    kindOf (step ((otherAt200 [0x23, 0x00]).setStack (deep 2))) = some .stackOverflow := by decide
/-- F10, F11. -/
theorem test_se_imm : goes (step ((at200 [0x31, 0x42]).setReg 1 0x42)) (fun t => t.pc == 0x204) = true ∧
    goes (step ((at200 [0x31, 0x43]).setReg 1 0x42)) (fun t => t.pc == 0x202) = true := by decide
/-- F13, F14. -/
theorem test_sne_imm : goes (step ((at200 [0x41, 0x42]).setReg 1 0x42)) (fun t => t.pc == 0x202) = true ∧
    goes (step ((at200 [0x41, 0x43]).setReg 1 0x42)) (fun t => t.pc == 0x204) = true := by decide
/-- F15, F16. -/
theorem test_se_reg : goes (step (((at200 [0x51, 0x20]).setReg 1 7).setReg 2 7)) (fun t => t.pc == 0x204) = true ∧
    goes (step (((at200 [0x51, 0x20]).setReg 1 7).setReg 2 8)) (fun t => t.pc == 0x202) = true := by decide
/-- F18, F19. -/
theorem test_sne_reg : goes (step (((at200 [0x91, 0x20]).setReg 1 7).setReg 2 8)) (fun t => t.pc == 0x204) = true ∧
    goes (step (((at200 [0x91, 0x20]).setReg 1 7).setReg 2 7)) (fun t => t.pc == 0x202) = true := by decide
/-- F22. -/
theorem test_jp_v0_high : goes (step ((at200 [0xBF, 0xFF]).setReg 0 0xFF)) (fun t => t.pc == 0x10FE) = true := by decide
/-- F23: the offset is V0, not V2. -/
theorem test_jp_v0 : goes (step (((at200 [0xB2, 0xFF]).setReg 0 1).setReg 2 0x55)) (fun t => t.pc == 0x300) = true := by
  decide

/-! ### Register ALU (2.4) -/

/-- A2. -/
theorem test_ld_imm : goes (step ((at200 [0x6F, 0x01]).setReg VF 0x33)) (fun t => t.reg VF == 1) = true := by decide
/-- A3: no carry flag. -/
theorem test_add_imm : goes (step (((at200 [0x71, 0x01]).setReg 1 0xFF).setReg VF 0x55))
    (fun t => t.reg 1 == 0 && t.reg VF == 0x55) = true := by decide
/-- A7. -/
theorem test_ld_reg : goes (step (((at200 [0x81, 0x20]).setReg 1 3).setReg 2 9))
    (fun t => t.reg 1 == 9 && t.reg 2 == 9) = true := by decide
/-- A8: VF stays. -/
theorem test_or : goes (step ((((at200 [0x81, 0x21]).setReg 1 0x0F).setReg 2 0xF0).setReg VF 0x55))
    (fun t => t.reg 1 == 0xFF && t.reg VF == 0x55) = true := by decide
/-- A9. -/
theorem test_and : goes (step (((at200 [0x81, 0x22]).setReg 1 0x3C).setReg 2 0x0F)) (fun t => t.reg 1 == 0x0C) = true := by
  decide
/-- A10. -/
theorem test_xor : goes (step (((at200 [0x81, 0x23]).setReg 1 0xFF).setReg 2 0x0F)) (fun t => t.reg 1 == 0xF0) = true := by
  decide
/-- A20, A25. -/
theorem test_add : goes (step (((at200 [0x81, 0x24]).setReg 1 0xFF).setReg 2 0xFF))
      (fun t => t.reg 1 == 0xFE && t.reg VF == 1) = true ∧
    goes (step (((at200 [0x81, 0x24]).setReg 1 0x7F).setReg 2 0x80))
      (fun t => t.reg 1 == 0xFF && t.reg VF == 0) = true := by decide
/-- A77: X = F keeps the carry (D6). -/
theorem test_add_vf : goes (step (((at200 [0x8F, 0x14]).setReg VF 0x10).setReg 1 0xF5)) (fun t => t.reg VF == 1) = true := by
  decide
/-- A32 (D19), A37. -/
theorem test_sub : goes (step (((at200 [0x81, 0x25]).setReg 1 0x42).setReg 2 0x42))
      (fun t => t.reg 1 == 0 && t.reg VF == 1) = true ∧
    goes (step (((at200 [0x81, 0x25]).setReg 1 5).setReg 2 7)) (fun t => t.reg 1 == 0xFE && t.reg VF == 0) = true := by
  decide
/-- A75: Y = F reads the old VF. -/
theorem test_sub_y_vf : goes (step (((at200 [0x81, 0xF5]).setReg 1 5).setReg VF 7))
    (fun t => t.reg 1 == 0xFE && t.reg VF == 0) = true := by decide
/-- A40, A44. -/
theorem test_subn : goes (step (((at200 [0x81, 0x27]).setReg 1 0x24).setReg 2 0x78))
      (fun t => t.reg 1 == 0x54 && t.reg VF == 1) = true ∧
    goes (step (((at200 [0x81, 0x27]).setReg 1 0xFF).setReg 2 0)) (fun t => t.reg 1 == 1 && t.reg VF == 0) = true := by
  decide
/-- A50: Y is ignored. -/
theorem test_shr : goes (step (((at200 [0x81, 0x26]).setReg 1 0xFD).setReg 2 0x99))
    (fun t => t.reg 1 == 0x7E && t.reg 2 == 0x99 && t.reg VF == 1) = true := by decide
/-- A82: X = F keeps the shifted value (D6). -/
theorem test_shr_vf : goes (step ((at200 [0x8F, 0x06]).setReg VF 5)) (fun t => t.reg VF == 2) = true := by decide
/-- A60. -/
theorem test_shl : goes (step (((at200 [0x81, 0x2E]).setReg 1 0x81).setReg 2 0x99))
    (fun t => t.reg 1 == 2 && t.reg 2 == 0x99 && t.reg VF == 1) = true := by decide
/-- A85: X = F keeps the shifted value (D6). -/
theorem test_shl_vf : goes (step ((at200 [0x8F, 0x0E]).setReg VF 0x40)) (fun t => t.reg VF == 0x80) = true := by decide
/-- A90, A93: the masking of a given byte. -/
theorem test_rnd_mask : ((at200 []).setMasked 1 0xA7 0x0F).reg 1 = 0x07 ∧
    ((at200 []).setMasked 1 0xFF 0xF0).reg 1 = 0xF0 := by decide
/-- PC and the count of draws after `CXNN`, whatever byte was drawn. -/
theorem test_rnd : goes (step (at200 [0xC1, 0xFF])) (fun t => t.pc == 0x202 && t.draws == 1) = true := by decide

/-! ### Index register and memory (2.5) -/

/-- M1. -/
theorem test_ld_i : goes (step (at200 [0xA1, 0x23])) (fun t => t.i == 0x123) = true := by decide
/-- M3: no overflow flag; M4: wraps (D5). -/
theorem test_add_i : goes (step ((((at200 [0xF1, 0x1E]).setI 0xFFF).setReg 1 1).setReg VF 0x55))
      (fun t => t.i == 0x1000 && t.reg VF == 0x55) = true ∧
    goes (step (((at200 [0xF1, 0x1E]).setI 0xFFFF).setReg 1 2)) (fun t => t.i == 1) = true := by decide
/-- M8. -/
theorem test_ld_f : goes (step ((at200 [0xF1, 0x29]).setReg 1 0xF)) (fun t => t.i == 0x4B) = true := by decide
/-- M9. -/
theorem test_ld_f_bad : kindOf (step ((at200 [0xF1, 0x29]).setReg 1 0x10)) = some .invalidFontIndex := by decide
/-- M20: the last three bytes of memory. -/
theorem test_ld_b : goes (step (((at200 [0xF1, 0x33]).setI 0xFFD).setReg 1 123))
    (fun t => t.readByte 0xFFD == 1 && t.readByte 0xFFE == 2 && t.readByte 0xFFF == 3) = true := by decide
/-- M21. -/
theorem test_ld_b_bad : kindOf (step (((at200 [0xF1, 0x33]).setI 0xFFE).setReg 1 123)) = some .invalidOpcode := by decide
/-- M24 (with X = 1): the byte after the last is left alone. -/
theorem test_store : goes (step ((((at200 [0xF1, 0x55]).setI 0x300).setReg 1 2).setReg 2 3))
    (fun t => t.readByte 0x301 == 2 && t.readByte 0x302 == 0 && t.i == 0x300) = true := by decide
/-- M27. -/
theorem test_store_bad : kindOf (step ((at200 [0xFF, 0x55]).setI 0xFF1)) = some .invalidOpcode := by decide
/-- M33: the font. -/
theorem test_load : goes (step ((at200 [0xF4, 0x65]).setI 0))
    (fun t => t.reg 0 == 0xF0 && t.reg 1 == 0x90 && t.reg 4 == 0xF0 && t.reg 5 == 0) = true := by decide
/-- M33 on a machine with another FONT, and after a `load` that leaves the font alone. -/
theorem test_load_other_font :
    goes (step ((otherAt200 [0xF4, 0x65]).setI 0)) (fun t => t.reg 0 == 0xAA && t.reg 4 == 0xAA && t.reg 5 == 0) = true := by
  decide
/-- M32. -/
theorem test_load_bad : kindOf (step ((at200 [0xFF, 0x65]).setI 0xFF1)) = some .invalidOpcode := by decide

/-! ### Framebuffer (2.6) -/

/-- G1, at two pixels. -/
theorem test_cls : goes (step (((at200 [0x00, 0xE0]).setFb
      ((Framebuffer.clear.setPixel 63 31 true).setPixel 0 0 true)).setReg VF 9))
    (fun t => !t.fb.pixel 0 0 && !t.fb.pixel 63 31 && t.dirty && t.reg VF == 9) = true := by decide
/-- G17: collision, and wrap-around in both directions. -/
theorem test_drw : goes (step ((((((at200 [0xD0, 0x12]).writeBytes 0x300 [0xC0, 0x80]).setI 0x300).setReg 0 63).setReg 1
      31).setFb (Framebuffer.clear.setPixel 63 31 true)))
    (fun t => !t.fb.pixel 63 31 && t.fb.pixel 0 31 && t.fb.pixel 63 0 && !t.fb.pixel 0 0 && t.reg VF == 1) = true := by
  decide
/-- G5 under the clipping alternative of D1: only the pixels on the grid. -/
theorem test_drw_clip : goes (step ((((otherAt200 [0xD0, 0x11]).writeBytes 0x300 [0xFF]).setI 0x300).setReg 0 60))
    (fun t => t.fb.pixel 60 0 && t.fb.pixel 63 0 && !t.fb.pixel 0 0 && !t.fb.pixel 3 0 && t.reg VF == 0) = true := by
  decide
/-- G14: all or nothing. -/
theorem test_drw_bad : kindOf (step ((at200 [0xD0, 0x12]).setI 0xFFF)) = some .invalidOpcode := by decide

/-! ### Keypad and timers (2.7) -/

theorem test_skp : goes (step (((at200 [0xE1, 0x9E]).setReg 1 0xF).setKeyAt 0xF true)) (fun t => t.pc == 0x204) = true ∧
    goes (step ((at200 [0xE1, 0x9E]).setReg 1 0xF)) (fun t => t.pc == 0x202) = true := by decide
theorem test_sknp : goes (step ((at200 [0xE1, 0xA1]).setReg 1 0xF)) (fun t => t.pc == 0x204) = true ∧
    kindOf (step ((at200 [0xE1, 0xA1]).setReg 1 0x10)) = some .invalidOpcode := by decide
theorem test_from_dt : goes (step ((at200 [0xF1, 0x07]).setDt 9)) (fun t => t.reg 1 == 9 && t.dt == 9) = true := by decide
theorem test_ld_dt : goes (step ((at200 [0xF1, 0x15]).setReg 1 9)) (fun t => t.dt == 9 && t.st == 0) = true := by decide
theorem test_ld_st : goes (step ((at200 [0xF1, 0x18]).setReg 1 9)) (fun t => t.st == 9 && t.dt == 0) = true := by decide
/-- S7, second step: PC is held (D7). -/
theorem test_ld_key : goes (step (atPc 0xFFE [0xF1, 0x0A])) (fun t => t.wait == some 1 && t.pc == 0xFFE) = true := by decide
/-- S7, the `key_down(4)`. -/
theorem test_key_down : let t := ((atPc 0xFFE [0xF1, 0x0A]).setWait (some 1)).keyDown 4
    t.reg 1 = 4 ∧ t.keyDownAt 4 = true ∧ t.wait = none ∧ t.pc = 0x1000 := by decide
theorem test_tick : ((State.reset.setDt 2).tickTimers).dt = 1 ∧ ((State.reset.setDt 2).tickTimers).st = 0 := by decide

/-! ### Witnesses: states and operands that meet the hypotheses of each statement -/

theorem witness_EncodeOfDecode : decodeWord 0x8AB6 = .ok (.shr 0xA 0xB) := rfl
theorem witness_DefinedIffOneRowMatches :
    ⟨0xF00F, 0x8006⟩ ∈ opcodeRows ∧ (0x8AB6 : Word) &&& 0xF00F = 0x8006 ∧ decodeWord 0x8AB6 = .ok (.shr 0xA 0xB) :=
  ⟨by decide, by decide, rfl⟩
theorem witness_InvalidWords : decodeWord 0x0000 = .error (.undefinedEncoding 0x0000) ∧
    decodeWord 0x9AB1 = .error (.undefinedEncoding 0x9AB1) := ⟨rfl, rfl⟩
/-- The third clause, at the last legal PC. -/
theorem witness_InvalidWords_step : let s := atPc 4094 [0xFF, 0xFF]
    s.wait = none ∧ s.pc.toNat = 4094 ∧ decodeWord (s.wordAt s.pc.toNat) = .error (.undefinedEncoding (s.wordAt s.pc.toNat)) :=
  ⟨rfl, rfl, rfl⟩
theorem witness_StepRunsDecodedInstruction : let s := atPc 4094 [0x60, 0x2A]
    s.wait = none ∧ s.pc.toNat = 4094 ∧ decodeWord (s.wordAt s.pc.toNat) = .ok (.ldImm 0 0x2A) := ⟨rfl, rfl, rfl⟩
theorem witness_BlockedStepChangesNothing : (State.reset.setWait (some 0xF)).wait = some 0xF ∧
    Operation.tickTimers ≠ .init ∧ ∀ c, Operation.tickTimers ≠ .keyDown c := ⟨rfl, by decide, by decide⟩
theorem witness_PcOutOfRangeIsFatal : (atPc 4095 []).wait = none ∧ (atPc 4095 []).pc.toNat = 4095 := ⟨rfl, rfl⟩
/-- Each check just passes. -/
theorem witness_Completes_next : ((at200 []).setI 0xFF0).instrFault (.storeRegs 0xF) = none ∧
    ((at200 []).setI 0xFFD).instrFault (.ldB 1) = none ∧ ((at200 []).setI 0xFFF).instrFault (.drw 0 1 1) = none ∧
    ((at200 []).setI 0xFFFF).instrFault (.drw 0 1 0) = none ∧ ((at200 []).setReg 1 0xF).instrFault (.ldF 1) = none ∧
    ((at200 []).setReg 1 0xF).instrFault (.skp 1) = none ∧ ((at200 []).setStack (deep 15)).instrFault (.call 0) = none ∧
    ((at200 []).setStack (deep 1)).instrFault .ret = none := by decide
/-- Each check just fails. -/
theorem witness_Completes_fault : ((at200 []).setI 0xFF1).instrFault (.loadRegs 0xF) = some .invalidOpcode ∧
    ((at200 []).setI 0xFFE).instrFault (.ldB 1) = some .invalidOpcode ∧
    ((at200 []).setI 0xFFF).instrFault (.drw 0 1 2) = some .invalidOpcode ∧
    ((at200 []).setReg 1 0x10).instrFault (.ldF 1) = some .invalidFontIndex ∧
    ((at200 []).setReg 1 0x10).instrFault (.sknp 1) = some .invalidOpcode ∧
    ((at200 []).setStack (deep 16)).instrFault (.call 0) = some .stackOverflow ∧
    (at200 []).instrFault .ret = some .stackUnderflow := by decide
/-- The three causes: PC too large, an undefined word, a failed check. -/
theorem witness_CausesOfFatalSteps : step (atPc 4095 []) = .fault .invalidOpcode ∧
    step (atPc 4094 [0xFF, 0xFF]) = .fault .invalidOpcode ∧ step (atPc 4094 [0x00, 0xEE]) = .fault .stackUnderflow :=
  ⟨rfl, rfl, rfl⟩
theorem witness_KindsOfStepAndLoad :
    State.reset.loadProgram (List.replicate 3585 0) = .error .programTooLarge := by
  rw [State.loadProgram, if_neg (by rw [List.length_replicate]; decide)]
theorem witness_FatalStepRepeats : step ((at200 [0xF1, 0x29]).setReg 1 0x10) = .fault .invalidFontIndex := rfl
theorem witness_ReturnPopsIntoPc : (State.reset.setStack [0x300, 0x202]).stack = 0x300 :: [0x202] ∧
    State.reset.stack = [] := ⟨rfl, rfl⟩
/-- One entry free and the last legal PC; full. -/
theorem witness_CallPushesReturnAddress :
    ((atPc 4094 []).setStack (deep 15)).stack.length < State.reset.config.stackCapacity ∧ ((atPc 4094 []).setStack (deep 15)).pc.toNat = 4094 ∧
    (State.reset.setStack (deep 16)).stack.length = State.reset.config.stackCapacity := by decide
/-- The last legal PC, for both skips on an immediate, on registers and on keys. -/
theorem witness_Skips : (atPc 4094 []).pc.toNat ≤ 4094 ∧
    goes (exec (.seImm 1 0) (atPc 4094 [])) (fun t => t.pc.toNat == 4098) = true ∧
    goes (exec (.sneImm 1 0) (atPc 4094 [])) (fun t => t.pc.toNat == 4096) = true ∧
    goes (exec (.seReg 1 2) (atPc 4094 [])) (fun t => t.pc.toNat == 4098) = true ∧
    goes (exec (.sneReg 1 2) (atPc 4094 [])) (fun t => t.pc.toNat == 4096) = true := by decide
theorem witness_SkipOnRegisters_low_nibble : instrOf 0x5121 = none ∧ instrOf 0x912F = none := by decide
theorem witness_JumpWithOffset : goes (exec (.jpV0 0xFFF) ((at200 []).setReg 0 0xFF)) (fun t => t.pc.toNat == 0x10FE) = true := by
  decide
/-- A call at the last legal PC, from a stack with one entry free, to the last legal PC − 2. -/
theorem witness_CallThenReturnSteps :
    let s := ((atPc 4094 [0x2F, 0xFC]).writeBytes 4092 [0x00, 0xEE]).setStack (deep 15)
    s.wait = none ∧ s.pc.toNat = 4094 ∧ s.stack.length < s.config.stackCapacity ∧ (0xFFC : Addr12).toNat ≤ 4094 ∧
    (s.wordAt s.pc.toNat).toNat = 0x2000 + (0xFFC : Addr12).toNat ∧ (s.wordAt (0xFFC : Addr12).toNat).toNat = 0x00EE := by
  decide
/-- A taken skip over 0xFFFF, and the same state with other bytes there. -/
theorem witness_StepReadsOnlyTheFetchedBytes :
    let s := at200 [0x30, 0x00, 0xFF, 0xFF]
    let m := (at200 [0x30, 0x00, 0x12, 0x34]).mem
    s.wait = none ∧ (s.setMem m).readByte s.pc.toNat = s.readByte s.pc.toNat ∧
      (s.setMem m).readByte (s.pc.toNat + 1) = s.readByte (s.pc.toNat + 1) ∧ s.fetch = .ok (.seImm 0 0) ∧
      ∃ t, step s = .next t :=
  ⟨rfl, by decide, by decide, rfl, _, rfl⟩
/-- X = F and X not F, for the statements that separate the two. -/
theorem witness_FlagProducers : (0xF : RegIdx) = VF ∧ (1 : RegIdx) ≠ VF := by decide
theorem witness_GlyphAddress : ((at200 []).setReg 1 0xF).reg 1 = 0xF ∧ ((at200 []).setReg 1 0x10).reg 1 = 0x10 := by decide
theorem witness_StoreDecimalDigits : ((at200 []).setI 0xFFD).canonical ∧ ((at200 []).setI 0xFFD).base + 2 = 4095 ∧
    4095 < ((at200 []).setI 0xFFE).base + 2 := by decide
theorem witness_StoreRegisters : ((at200 []).setI 0xFF0).canonical ∧ ((at200 []).setI 0xFF0).base + (0xF : RegIdx).val = 4095 ∧
    4095 < ((at200 []).setI 0xFF1).base + (0xF : RegIdx).val ∧ ((at200 []).setI 0xFFF).base + (0 : RegIdx).val = 4095 := by
  decide
theorem witness_LoadRegisters : ((at200 []).setI 0xFF0).base + (0xF : RegIdx).val = 4095 ∧
    4095 < ((at200 []).setI 0xFF1).base + (0xF : RegIdx).val := by decide
/-- A store of V0..V3 to the last four bytes, and a state with the same memory and I and other registers. -/
theorem witness_StoreThenLoadReadsBack :
    let s := ((at200 []).setI 0xFFC).setReg 3 0x44
    s.canonical ∧ ∃ t, exec (.storeRegs 3) s = .next t ∧
      (t.setReg 3 0).mem = t.mem ∧ (t.setReg 3 0).config = t.config ∧ (t.setReg 3 0).i = t.i :=
  ⟨by decide, _, rfl, rfl, rfl, rfl⟩
/-- `F155` at 4092 with I = 4094: the largest PC the statement admits. -/
theorem witness_StoreSeenByNextFetch : let s := (atPc 4092 [0xF1, 0x55]).setI 4094
    s.canonical ∧ s.wait = none ∧ s.pc.toNat + 2 + (1 : RegIdx).val = 4095 ∧
      decodeWord (s.wordAt s.pc.toNat) = .ok (.storeRegs 1) ∧ 1 ≤ (1 : RegIdx).val ∧ s.i.toNat = s.pc.toNat + 2 :=
  ⟨by decide, rfl, by decide, rfl, by decide, rfl⟩
/-- No row with I anywhere; one row at the last address; one row too many. -/
theorem witness_DrawXorsTheSprite : (0 : RowCount).val = 0 ∧
    ((at200 []).setI 0xFFF).base + (1 : RowCount).val - 1 = 4095 ∧
    4095 < ((at200 []).setI 0xFFF).base + (2 : RowCount).val - 1 := by decide
/-- A pixel that is covered and 1, as the collision clause asks. -/
theorem witness_DrawXorsTheSprite_covers :
    let s := (((at200 []).writeBytes 0x300 [0x81]).setI 0x300).setFb (Framebuffer.clear.setPixel 3 0 true)
    s.spriteCovers s.base 60 0 1 3 0 ∧ s.fb.pixel 3 0 = true :=
  ⟨⟨0, by decide, 7, by decide, by decide, by decide, by decide⟩, by decide⟩
/-- No covered pixel is 1: a clear framebuffer. -/
theorem witness_DrawXorsTheSprite_clear : ∀ px py, State.reset.fb.pixel px py = false := by
  intro px py
  simp [State.reset, State.resetWith, Framebuffer.pixel]
/-- Under clipping the pixel past the edge is covered by no bit, and one on the grid is. -/
theorem witness_DrawXorsTheSprite_clip :
    let s := ((otherAt200 []).writeBytes 0x300 [0x81]).setI 0x300
    s.spriteCovers s.base 56 0 1 63 0 ∧ ¬ s.spriteCovers s.base 60 0 1 3 0 :=
  ⟨⟨0, by decide, 7, by decide, by decide, by decide, by decide⟩, by
    rintro ⟨r, -, c, -, -, h, -⟩
    change 3 = 60 + c at h
    omega⟩
theorem witness_DrawingTwiceRestores : State.reset.config.spriteEdge = .wrap ∧ (1 : RegIdx) ≠ VF ∧ (2 : RegIdx) ≠ VF ∧
    ∃ t, exec (.drw 1 2 5) State.reset = .next t := ⟨rfl, by decide, by decide, _, rfl⟩
/-- Key 15 and a VX of 16. -/
theorem witness_SkipOnKey : let s := (atPc 4094 []).setReg 1 0xF
    s.pc.toNat ≤ 4094 ∧ (0xF : KeyIdx).val = (s.reg 1).toNat ∧ 15 < ((atPc 4094 []).setReg 1 0x10 |>.reg 1).toNat := by
  decide
theorem witness_WaitForKey : let s := atPc 4094 [0xF1, 0x0A]
    s.wait = none ∧ s.pc.toNat = 4094 ∧ decodeWord (s.wordAt s.pc.toNat) = .ok (.ldKey 1) := ⟨rfl, rfl, rfl⟩
theorem witness_KeyDownEvent : State.reset.wait = none ∧ (State.reset.setWait (some 0)).wait = some 0 := ⟨rfl, rfl⟩
theorem witness_WaitLastsUntilKeyDown : let ops := [.step, .keyUp 3, .tickTimers, .load [0x12, 0x00], .clearDirty]
    (State.reset.setWait (some 0)).wait = some 0 ∧ Operation.init ∉ ops ∧ ∀ c, Operation.keyDown c ∉ ops := by decide
theorem witness_SoundIsActive : ∃ t, exec (.ldST 1) ((at200 []).setReg 1 2) = .next t := ⟨_, rfl⟩
theorem witness_RenderInterface : (State.reset.setDirty true).dirty = true ∧ Operation.step ≠ .clearDirty ∧
    Operation.step ≠ .init ∧ (2047 : Fin (32 * 64)).val = (31 : Row).val * 64 + (63 : Column).val := by decide
/-- An instruction that writes none of the guarded elements, and one that writes the screen. -/
theorem witness_AccessMatrix : (∃ t, exec (.jp 0) State.reset = .next t) ∧ (∃ t, exec .cls State.reset = .next t) ∧
    (Instr.jp 0).writesMemory = false ∧ (Instr.jp 0).writesIndex = false ∧ (Instr.jp 0).writesStack = false ∧
    (Instr.jp 0).writesScreen = false ∧ Instr.cls.writesScreen = true :=
  ⟨⟨_, rfl⟩, ⟨_, rfl⟩, rfl, rfl, rfl, rfl, rfl⟩
/-- VF under an instruction that does not write the flag, and a plain register. -/
theorem witness_RegistersChangeOnlyAsDestinations : (∃ t, exec (.orReg 1 2) State.reset = .next t) ∧
    (Instr.orReg 1 2).hasDestination VF = false ∧ (Instr.orReg 1 2).writesFlag = false ∧
    (Instr.orReg 1 2).hasDestination 2 = false := ⟨⟨_, rfl⟩, rfl, rfl, rfl⟩
theorem witness_PcAfterEveryInstruction : (atPc 4094 []).pc.toNat = 4094 ∧ ∃ t, exec (.ldImm 0 1) (atPc 4094 []) = .next t :=
  ⟨rfl, _, rfl⟩
/-- The last address a self-jump can end at. -/
theorem witness_EndedIsFixedPoint : (atPc 4094 [0x1F, 0xFE]).ended := ⟨rfl, by decide, by decide, by decide⟩
/-- A Running state with a written byte, a full stack and the largest PC; its step is fatal. -/
theorem witness_Inv_extreme : ((atPc 0x10FE []).setMem [(0xFFF, 1)] |>.setStack (deep 16)).Inv :=
  ⟨by decide, by decide, by decide, fun w hw => by rw [List.eq_of_mem_replicate hw]; decide, fun h => by cases h⟩
theorem witness_StepKeepsInvariant : (atPc 4094 [0x60, 0x2A]).Inv ∧ ∃ t, step (atPc 4094 [0x60, 0x2A]) = .next t :=
  ⟨⟨by decide, by decide, by decide, (fun w hw => by cases hw), fun h => by cases h⟩, _, rfl⟩
/-- A waiting state at the last PC it can have. -/
theorem witness_SchedulesKeepInvariant : ((atPc 4094 [0xF1, 0x0A]).setWait (some 1)).Inv :=
  ⟨by decide, by decide, by decide, (fun w hw => by cases hw), fun _ => by decide⟩
theorem witness_LoadCopiesTheProgram : State.reset.canonical ∧ (List.replicate 3584 (1 : Byte)).length = 3584 :=
  ⟨by decide, List.length_replicate⟩
theorem witness_LoadTooLongChangesNothing : 3584 < (List.replicate 3585 (1 : Byte)).length ∧
    (List.replicate 3584 (1 : Byte)).length ≤ 4096 - 0x200 := by
  rw [List.length_replicate, List.length_replicate]
  decide
theorem witness_ResetValues : State.reset.readByte 79 = 0x80 ∧ State.reset.readByte 80 = 0 := by decide

end Sys2Proof.Machine.Tests
end

section
/-! What an instruction that completes can do to the elements the invariant speaks of: memory, PC, the stack,
the key-wait and the configuration (R25, R70). Every other element is free. -/

namespace Sys2Proof.Machine

variable {s t : State}

/-! ### The instructions with a check, where it passes -/

/-- `00EE` completes exactly when the stack has a top, and goes there (R80). -/
theorem execRet_next : execRet s = .next t ↔ ∃ w u, s.pop = .ok (w, u) ∧ t = u.jump w := by
  unfold execRet
  rcases s.pop with _ | ⟨w, u⟩ <;> simp [raise, eq_comm]

/-- `2NNN` completes exactly when PC + 2 can be pushed (R82). -/
theorem execCall_next {nnn : Addr12} :
    execCall nnn s = .next t ↔
      ∃ u, s.push s.config.stackCapacity (s.pc + 2) = .ok u ∧ t = u.jump (addrOf nnn) := by
  unfold execCall
  cases s.push s.config.stackCapacity (s.pc + 2) <;> simp [raise, eq_comm]

/-- `DXYN` completes exactly when its rows can be read (R122). -/
theorem execDrw_next {x y : RegIdx} {n : RowCount} :
    execDrw x y n s = .next t ↔ ∃ rows, s.loadBytes s.base n.val = .ok rows ∧
      t = s.drawn (drawSprite s.config.spriteEdge (s.reg x).toNat (s.reg y).toNat rows s.fb) := by
  unfold execDrw
  cases s.loadBytes s.base n.val <;> simp [raise, eq_comm]

/-- `EX9E` completes exactly when VX is a key (R130, R136). -/
theorem execSkp_next {x : RegIdx} :
    execSkp x s = .next t ↔ ∃ k, keyOperand (s.reg x) = .ok k ∧ t = s.skipIf (s.keyDownAt k) := by
  unfold execSkp
  cases keyOperand (s.reg x) <;> simp [raise, eq_comm]

/-- `EXA1` completes exactly when VX is a key (R131, R136). -/
theorem execSknp_next {x : RegIdx} :
    execSknp x s = .next t ↔ ∃ k, keyOperand (s.reg x) = .ok k ∧ t = s.skipIf (!s.keyDownAt k) := by
  unfold execSknp
  cases keyOperand (s.reg x) <;> simp [raise, eq_comm]

/-- `FX29` completes exactly when VX has a glyph (R112). -/
theorem execLdF_next {x : RegIdx} :
    execLdF x s = .next t ↔ ∃ a, glyphAddr (s.reg x) = .ok a ∧ t = (s.setI a).advance := by
  unfold execLdF
  cases glyphAddr (s.reg x) <;> simp [raise, eq_comm]

/-- `FX33` completes exactly when its digits can be stored (R113). -/
theorem execLdB_next {x : RegIdx} :
    execLdB x s = .next t ↔ ∃ u, s.storeBytes s.base (decimalDigits (s.reg x)) = .ok u ∧ t = u.advance := by
  unfold execLdB
  cases s.storeBytes s.base (decimalDigits (s.reg x)) <;> simp [raise, eq_comm]

/-- `FX55` completes exactly when its registers can be stored (R114). -/
theorem execStoreRegs_next {x : RegIdx} :
    execStoreRegs x s = .next t ↔ ∃ u, s.storeBytes s.base (s.firstRegs x) = .ok u ∧ t = u.advance := by
  unfold execStoreRegs
  cases s.storeBytes s.base (s.firstRegs x) <;> simp [raise, eq_comm]

/-- `FX65` completes exactly when its bytes can be read (R115). -/
theorem execLoadRegs_next {x : RegIdx} :
    execLoadRegs x s = .next t ↔
      ∃ bs, s.loadBytes s.base (x.val + 1) = .ok bs ∧ t = (s.setFirstRegs bs).advance := by
  unfold execLoadRegs
  cases s.loadBytes s.base (x.val + 1) <;> simp [raise, eq_comm]

/-! ### The six effects -/

/-- The ways an instruction that completes treats configuration, memory, stack, key-wait and PC. -/
inductive ExecEffect (s : State) : State → Prop where
  /-- PC moves on by 2 or 4, the other four elements stay. -/
  | goesOn {t : State} (config : t.config = s.config) (mem : t.mem = s.mem) (stack : t.stack = s.stack)
      (wait : t.wait = s.wait) (pc : t.pc = s.pc + 2 ∨ t.pc = s.pc + 4) : ExecEffect s t
  /-- A jump, at most to 0xFF + 0xFFF (R81, R87). -/
  | jumps (target : Word) (bound : target.toNat ≤ 0x10FE) : ExecEffect s (s.jump target)
  /-- A return to the top of the stack (R80). -/
  | returns (w : Word) (rest : List Word) (stack : s.stack = w :: rest) :
      ExecEffect s ((s.setStack rest).jump w)
  /-- A call from a stack that is not full (R82). -/
  | calls (nnn : Addr12) (room : s.stack.length < s.config.stackCapacity) :
      ExecEffect s ((s.setStack ((s.pc + 2) :: s.stack)).jump (addrOf nnn))
  /-- A store inside the address space (R113, R114). -/
  | stores (base : Nat) (bs : List Byte) (bound : inRange base bs.length = true) :
      ExecEffect s (s.writeBytes base bs).advance
  /-- The wait for a key, with PC held (R133, D7). -/
  | waits (x : RegIdx) : ExecEffect s (s.setWait (some x))

/-- PC + 2 after writes that touch none of the five elements. -/
theorem ExecEffect.advance {u : State} (config : u.config = s.config) (mem : u.mem = s.mem)
    (stack : u.stack = s.stack) (wait : u.wait = s.wait) (pc : u.pc = s.pc) : ExecEffect s u.advance :=
  .goesOn config mem stack wait (.inl (by rw [State.advance_eq, State.setPc_pc, pc]))

/-- A skip, taken or not, only moves PC on. -/
theorem ExecEffect.skipIf (c : Bool) : ExecEffect s (s.skipIf c) := by
  cases c with
  | false => exact .goesOn rfl rfl rfl rfl (.inl rfl)
  | true => exact .goesOn rfl rfl rfl rfl (.inr rfl)

/-- A drawn sprite, whatever its pixels, writes the screen and VF, and moves PC on. -/
theorem ExecEffect.drawn (d : Framebuffer × Bool) : ExecEffect s (s.drawn d) :=
  .goesOn rfl rfl rfl rfl (.inl rfl)

/-- Registers loaded from bytes, whatever the bytes, then PC + 2. -/
theorem ExecEffect.setFirstRegs (bs : List Byte) : ExecEffect s (s.setFirstRegs bs).advance :=
  .advance (s.setFirstRegs_config bs) (s.setFirstRegs_mem bs) (s.setFirstRegs_stack bs)
    (s.setFirstRegs_wait bs) (s.setFirstRegs_pc bs)

/-- A store that passes its check, then PC + 2. -/
theorem ExecEffect.of_storeBytes {u : State} {base : Nat} {bs : List Byte}
    (h : s.storeBytes base bs = .ok u) : ExecEffect s u.advance := by
  obtain ⟨bound, rfl⟩ := s.storeBytes_ok.mp h
  exact .stores base bs bound

/-- The inversion of `exec`: an instruction that completes has one of the six effects. -/
theorem exec_effect {i : Instr} (h : exec i s = .next t) : ExecEffect s t := by
  cases i with
  | cls | ldImm | addImm | ldReg | orReg | andReg | xorReg | addReg | subReg | shr | subnReg | shl | ldI | rnd
  | ldFromDT | ldDT | ldST | addI =>
    obtain rfl := Host.Outcome.next.inj h
    exact .goesOn rfl rfl rfl rfl (.inl rfl)
  | seImm | sneImm | seReg | sneReg =>
    obtain rfl := Host.Outcome.next.inj h
    exact .skipIf _
  | jp nnn =>
    obtain rfl := Host.Outcome.next.inj h
    exact .jumps _ (by rw [addrOf_toNat]; omega)
  | jpV0 nnn =>
    obtain rfl := Host.Outcome.next.inj h
    exact .jumps _ (by rw [offsetAddr_toNat]; omega)
  | ldKey x =>
    obtain rfl := Host.Outcome.next.inj h
    exact .waits x
  | ret =>
    obtain ⟨w, u, hpop, rfl⟩ := execRet_next.mp h
    obtain ⟨rest, hstack, rfl⟩ := s.pop_ok.mp hpop
    exact .returns w rest hstack
  | call nnn =>
    obtain ⟨u, hpush, rfl⟩ := execCall_next.mp h
    obtain ⟨room, rfl⟩ := s.push_ok.mp hpush
    exact .calls nnn room
  | drw =>
    obtain ⟨rows, -, rfl⟩ := execDrw_next.mp h
    exact .drawn _
  | skp =>
    obtain ⟨k, -, rfl⟩ := execSkp_next.mp h
    exact .skipIf _
  | sknp =>
    obtain ⟨k, -, rfl⟩ := execSknp_next.mp h
    exact .skipIf _
  | ldF =>
    obtain ⟨a, -, rfl⟩ := execLdF_next.mp h
    exact .goesOn rfl rfl rfl rfl (.inl rfl)
  | ldB =>
    obtain ⟨u, hstore, rfl⟩ := execLdB_next.mp h
    exact .of_storeBytes hstore
  | storeRegs =>
    obtain ⟨u, hstore, rfl⟩ := execStoreRegs_next.mp h
    exact .of_storeBytes hstore
  | loadRegs =>
    obtain ⟨bs, -, rfl⟩ := execLoadRegs_next.mp h
    exact .setFirstRegs bs

/-- No instruction changes the parameters (R22). -/
theorem ExecEffect.config_eq (h : ExecEffect s t) : t.config = s.config := by
  cases h with
  | goesOn config => exact config
  | jumps | returns | calls | stores | waits => rfl

end Sys2Proof.Machine
end

section
/-! The operations of the host (R4): what each does to a state, and the induction over schedules (R157). -/

namespace Sys2Proof.Machine

variable {s t : State}

/-- The state after a step is the one it answers, or the state before it. -/
theorem stateAfter_cases (s : State) (r : Result) : stateAfter s r = s ∨ r = .next (stateAfter s r) := by
  cases r with
  | next t => exact .inr rfl
  | fault | refused => exact .inl rfl

/-- A `load` changes nothing (R163), or it writes at most 3584 bytes from 0x200 on (R162). -/
theorem apply_load_cases (s : State) (bytes : List Byte) :
    (Operation.load bytes).apply s = s ∨
      bytes.length ≤ Config.progMaxLen ∧
        (Operation.load bytes).apply s = s.writeBytes Config.progBase bytes := by
  by_cases h : bytes.length ≤ Config.progMaxLen
  · exact .inr ⟨h, by simp [Operation.apply, State.loadProgram, h]⟩
  · exact .inl (by simp [Operation.apply, State.loadProgram, h])

/-- `key_down` on a Running core sets the key (R148). -/
theorem State.keyDown_running (h : s.wait = none) (c : KeyIdx) : s.keyDown c = s.setKeyAt c true := by
  simp only [State.keyDown, h]

/-- `key_down` on a waiting core resolves the wait as well (R148, D7). -/
theorem State.keyDown_waiting {x : RegIdx} (h : s.wait = some x) (c : KeyIdx) :
    s.keyDown c =
      (((s.setKeyAt c true).setReg x (BitVec.ofNat 8 c.val)).advance).setWait none := by
  simp only [State.keyDown, h]

/-- What every operation keeps, every schedule keeps (R157). -/
theorem runSchedule_keeps {p : State → Prop} (keeps : ∀ op s, p s → p (Operation.apply op s))
    (ops : List Operation) {s : State} (hs : p s) : p (runSchedule ops s) := by
  induction ops generalizing s with
  | nil => exact hs
  | cons op ops ih => exact ih (keeps op s hs)

end Sys2Proof.Machine
end

section
/-! The parameters are no state (R6, R22): no step and no operation of the host changes them. -/

namespace Sys2Proof.Machine

variable {s t : State}

/-- A step keeps the parameters, blocked or not. -/
theorem step_config (h : step s = .next t) : t.config = s.config := by
  obtain ⟨-, rfl⟩ | ⟨-, i, -, hexec⟩ := step_next h
  · rfl
  · exact (exec_effect hexec).config_eq

@[simp] theorem State.keyDown_config (s : State) (c : KeyIdx) : (s.keyDown c).config = s.config := by
  cases hw : s.wait with
  | none => rw [State.keyDown_running hw]; rfl
  | some x => rw [State.keyDown_waiting hw]; rfl

/-- Every operation of the host keeps the parameters. -/
theorem apply_config (op : Operation) (s : State) : (op.apply s).config = s.config := by
  cases op with
  | init | tickTimers | keyUp | clearDirty => rfl
  | load bytes =>
    obtain h | ⟨-, h⟩ := apply_load_cases s bytes <;> rw [h]
    exact s.writeBytes_config _ _
  | step =>
    obtain h | h := stateAfter_cases s (step s)
    · exact congrArg State.config h
    · exact step_config h
  | keyDown c => exact s.keyDown_config c

/-- Settles O60: every operation keeps the parameters, so every schedule does. -/
theorem parametersAreConstant : Obligations.ParametersAreConstant := fun ops s =>
  runSchedule_keeps (p := fun t => t.config = s.config) (fun op t ht => (apply_config op t).trans ht) ops rfl

end Sys2Proof.Machine
end

section
/-! The invariant (R14, R15, R82, R133): every instruction, every step and every operation of the host keeps it. -/

namespace Sys2Proof.Machine

variable {s t : State}

/-- The invariant speaks of configuration, memory, PC, stack and key-wait alone. -/
theorem State.Inv.congr (hs : s.Inv) (config : t.config = s.config) (mem : t.mem = s.mem) (pc : t.pc = s.pc)
    (stack : t.stack = s.stack) (wait : t.wait = s.wait) : t.Inv where
  memory := by rw [State.canonical, config, mem]; exact hs.memory
  pcBound := by rw [pc]; exact hs.pcBound
  stackBound := by rw [stack, config]; exact hs.stackBound
  returnAddresses := by rw [stack]; exact hs.returnAddresses
  waitingPc := by rw [wait, pc]; exact hs.waitingPc

/-- A Running core may be given any PC in bounds. -/
theorem State.Inv.setPc (hs : s.Inv) (hw : s.wait = none) {w : Word} (bound : w.toNat ≤ 0x10FE) :
    (s.setPc w).Inv :=
  { hs with pcBound := bound, waitingPc := fun h => by simp [hw] at h }

/-- The stack may be replaced by one of return addresses that fits. -/
theorem State.Inv.setStack (hs : s.Inv) {l : List Word} (fits : l.length ≤ s.config.stackCapacity)
    (addresses : ∀ w ∈ l, 2 ≤ w.toNat ∧ w.toNat ≤ 4096) : (s.setStack l).Inv :=
  { hs with stackBound := fits, returnAddresses := addresses }

/-- A core whose PC is in range may wait, or stop waiting (R133). -/
theorem State.Inv.setWait (hs : s.Inv) {x : Option RegIdx} (hx : x.isSome → s.pc.toNat ≤ Config.pcMax) :
    (s.setWait x).Inv :=
  { hs with waitingPc := hx }

/-- Bytes may be written inside the address space. -/
theorem State.Inv.writeBytes (hs : s.Inv) {base : Nat} {bs : List Byte}
    (bound : base + bs.length ≤ Config.memSize) : (s.writeBytes base bs).Inv :=
  { hs with memory := s.canonical_writeBytes hs.memory bound }

/-- The reset state of every machine meets the invariant, whatever was drawn before (R160). -/
theorem State.init_inv (s : State) : s.init.Inv where
  memory := ⟨.nil, fun _ h => nomatch h⟩
  pcBound := show (0x200 : Word).toNat ≤ 0x10FE by decide
  stackBound := Nat.zero_le _
  returnAddresses := fun _ h => nomatch h
  waitingPc := fun h => nomatch h

/-- Each of the six effects keeps the invariant of a Running core whose PC is in range. -/
theorem ExecEffect.keeps_inv (h : ExecEffect s t) (hs : s.Inv) (hw : s.wait = none)
    (hpc : s.pc.toNat ≤ Config.pcMax) : t.Inv := by
  have hpc' : s.pc.toNat ≤ 4094 := hpc
  have next2 := pc_add_two hpc
  have next4 := pc_add_four hpc
  cases h with
  | goesOn config mem stack wait pc =>
    have bound : t.pc.toNat ≤ 0x10FE := by
      obtain pc | pc := pc <;> rw [pc] <;> omega
    exact (hs.setPc hw bound).congr config mem rfl stack wait
  | jumps target bound => exact hs.setPc hw bound
  | returns w rest stack =>
    have fits := hs.stackBound
    have addresses := hs.returnAddresses
    rw [stack] at fits addresses
    obtain ⟨⟨-, hw4096⟩, hrest⟩ := List.forall_mem_cons.mp addresses
    exact (hs.setStack (Nat.le_of_succ_le fits) hrest).setPc hw (by omega)
  | calls nnn room =>
    have pushed : ∀ w ∈ (s.pc + 2) :: s.stack, 2 ≤ w.toNat ∧ w.toNat ≤ 4096 :=
      List.forall_mem_cons.mpr ⟨by omega, hs.returnAddresses⟩
    have fits : ((s.pc + 2) :: s.stack).length ≤ s.config.stackCapacity := room
    exact (hs.setStack fits pushed).setPc hw (by rw [addrOf_toNat]; omega)
  | stores base bs bound =>
    have stored : (s.writeBytes base bs).Inv := by
      obtain empty | bound := inRange_le bound
      · rw [List.eq_nil_of_length_eq_zero empty]
        exact hs
      · exact hs.writeBytes bound
    exact stored.setPc hw (by rw [State.writeBytes_pc]; omega)
  | waits x => exact hs.setWait fun _ => hpc

/-- A step keeps the invariant: a blocked one changes nothing, and a fetch finds PC in range (R66, R67). -/
theorem step_keeps_inv (hs : s.Inv) (h : step s = .next t) : t.Inv := by
  obtain ⟨-, rfl⟩ | ⟨hw, i, hfetch, hexec⟩ := step_next h
  · exact hs
  · exact (exec_effect hexec).keeps_inv hs hw (fetch_ok.mp hfetch).1

/-- `key_down` keeps the invariant: a waiting core's PC is at most 4094, so PC + 2 is in bounds (R148). -/
theorem State.Inv.keyDown (hs : s.Inv) (c : KeyIdx) : (s.keyDown c).Inv := by
  cases hw : s.wait with
  | none =>
    rw [State.keyDown_running hw]
    exact hs.congr rfl rfl rfl rfl rfl
  | some x =>
    have hpc : s.pc.toNat ≤ Config.pcMax := hs.waitingPc (by rw [hw]; rfl)
    have bound : (s.pc + 2).toNat ≤ 0x10FE := by
      rw [pc_add_two hpc]
      exact (Nat.add_le_add_right hpc 2).trans (by decide)
    have running : (s.setWait none).Inv := hs.setWait nofun
    rw [State.keyDown_waiting hw]
    exact (running.setPc rfl bound).congr rfl rfl rfl rfl rfl

/-- A `load` keeps the invariant: the longest program ends at 4095 (R162, R163). -/
theorem State.Inv.load (hs : s.Inv) (bytes : List Byte) : ((Operation.load bytes).apply s).Inv := by
  obtain h | ⟨fits, h⟩ := apply_load_cases s bytes <;> rw [h]
  · exact hs
  · exact hs.writeBytes (Nat.add_le_add_left fits Config.progBase)

/-- Every operation of the host keeps the invariant. -/
theorem apply_keeps_inv (op : Operation) (s : State) (hs : s.Inv) : (op.apply s).Inv := by
  cases op with
  | init => exact s.init_inv
  | load bytes => exact hs.load bytes
  | step =>
    obtain h | h := stateAfter_cases s (step s)
    · rw [Operation.apply, h]
      exact hs
    · exact step_keeps_inv hs h
  | tickTimers | keyUp | clearDirty => exact hs.congr rfl rfl rfl rfl rfl
  | keyDown c => exact hs.keyDown c

/-- Settles O55: every operation keeps the invariant, so every schedule does. -/
theorem schedulesKeepInvariant : Obligations.SchedulesKeepInvariant := fun ops _ hs =>
  runSchedule_keeps apply_keeps_inv ops hs

end Sys2Proof.Machine
end

section
/-! The access matrix (R25): which elements an instruction that completes leaves alone. -/

namespace Sys2Proof.Machine

variable {s t : State}

/-- The row of an instruction in the access matrix, element by element. An element is kept by default, so that
a case of the inversion below names exactly the elements its instruction writes. -/
structure AccessRow (i : Instr) (s t : State) : Prop where
  memory : i.writesMemory = false → t.mem = s.mem := by intros; rfl
  registers : ∀ z, i.hasDestination z = false → (z = VF → i.writesFlag = false) → t.reg z = s.reg z := by
    intros; rfl
  index : i.writesIndex = false → t.i = s.i := by intros; rfl
  stack : i.writesStack = false → t.stack = s.stack := by intros; rfl
  pixels : i.writesScreen = false → t.fb = s.fb := by intros; rfl
  /-- The redraw flag is set by exactly the instructions that write the screen (R125, D9). -/
  dirty : t.dirty = (i.writesScreen || s.dirty) := by rfl
  delayTimer : (∀ x, i ≠ .ldDT x) → t.dt = s.dt := by intros; rfl
  soundTimer : (∀ x, i ≠ .ldST x) → t.st = s.st := by intros; rfl
  keys : t.key = s.key := by rfl
  keyWait : (∀ x, i ≠ .ldKey x) → t.wait = s.wait := by intros; rfl
  draws : (∀ x nn, i ≠ .rnd x nn) → t.draws = s.draws := by intros; rfl
  config : t.config = s.config := by rfl

/-- A register other than X and VF is kept by the two writes of `8XY4`, `8XY5`, `8XY7`. -/
theorem State.reg_writeThenFlag_other {x z : RegIdx} (hx : z ≠ x) (hf : z ≠ VF) (r f : Byte) :
    (s.writeThenFlag x r f).reg z = s.reg z := by
  rw [State.reg_writeThenFlag, if_neg hf, if_neg hx]

/-- A register other than X and VF is kept by the two writes of `8XY6`, `8XYE`. -/
theorem State.reg_flagThenWrite_other {x z : RegIdx} (hx : z ≠ x) (hf : z ≠ VF) (r f : Byte) :
    (s.flagThenWrite x r f).reg z = s.reg z := by
  rw [State.reg_flagThenWrite, if_neg hx, if_neg hf]

/-- An instruction off the screen that writes the register file, whatever it holds then, and moves PC on. -/
theorem AccessRow.ofSetV {i : Instr} (quiet : i.writesScreen = false) {v : Vector Byte 16}
    (registers : ∀ z, i.hasDestination z = false → (z = VF → i.writesFlag = false) → (s.setV v).reg z = s.reg z) :
    AccessRow i s (s.setV v).advance where
  registers := registers
  dirty := by rw [quiet, Bool.false_or]; rfl

/-- A drawn sprite, whatever its pixels, writes the screen and VF. -/
theorem AccessRow.drawn {x y : RegIdx} {n : RowCount} (d : Framebuffer × Bool) :
    AccessRow (.drw x y n) s (s.drawn d) where
  pixels := nofun
  registers _ _ hf := State.reg_setReg_other _ (nomatch hf ·) _

/-- The inversion of `exec` by elements: an instruction that completes writes only what its row allows. -/
theorem exec_accessRow {i : Instr} (h : exec i s = .next t) : AccessRow i s t := by
  cases i with
  | jp | jpV0 =>
    obtain rfl := Host.Outcome.next.inj h
    exact {}
  | seImm | sneImm | seReg | sneReg =>
    obtain rfl := Host.Outcome.next.inj h
    rw [State.skipIf_eq]
    exact {}
  | skp =>
    obtain ⟨k, -, rfl⟩ := execSkp_next.mp h
    rw [State.skipIf_eq]
    exact {}
  | sknp =>
    obtain ⟨k, -, rfl⟩ := execSknp_next.mp h
    rw [State.skipIf_eq]
    exact {}
  | ldImm | addImm | ldReg | orReg | andReg | xorReg | ldFromDT =>
    obtain rfl := Host.Outcome.next.inj h
    exact .ofSetV rfl fun z hz _ => s.reg_setReg_other (ne_of_beq_false hz) _
  | addReg | subReg | subnReg =>
    obtain rfl := Host.Outcome.next.inj h
    exact .ofSetV rfl fun z hz hf => State.reg_writeThenFlag_other (ne_of_beq_false hz) (nomatch hf ·) _ _
  | shr | shl =>
    obtain rfl := Host.Outcome.next.inj h
    exact .ofSetV rfl fun z hz hf => State.reg_flagThenWrite_other (ne_of_beq_false hz) (nomatch hf ·) _ _
  | rnd x nn =>
    obtain rfl := Host.Outcome.next.inj h
    exact { registers := fun z hz _ => State.reg_setReg_other _ (ne_of_beq_false hz) _
            draws := fun other => absurd rfl (other x nn) }
  | loadRegs x =>
    obtain ⟨bs, hload, rfl⟩ := execLoadRegs_next.mp h
    have length : bs.length = x.val + 1 := by
      rw [(s.loadBytes_ok.mp hload).2, State.readBytes_length]
    have above {z : RegIdx} (hz : (Instr.loadRegs x).hasDestination z = false) : ¬z.val < bs.length := by
      have : ¬z.val ≤ x.val := of_decide_eq_false hz
      omega
    exact .ofSetV rfl fun z hz _ => (s.reg_setFirstRegs bs z).trans (if_neg (above hz))
  | ldI | addI =>
    obtain rfl := Host.Outcome.next.inj h
    exact { index := nofun }
  | ldF =>
    obtain ⟨a, -, rfl⟩ := execLdF_next.mp h
    exact { index := nofun }
  | ldB =>
    obtain ⟨u, hstore, rfl⟩ := execLdB_next.mp h
    obtain ⟨-, rfl⟩ := s.storeBytes_ok.mp hstore
    exact { memory := nofun }
  | storeRegs =>
    obtain ⟨u, hstore, rfl⟩ := execStoreRegs_next.mp h
    obtain ⟨-, rfl⟩ := s.storeBytes_ok.mp hstore
    exact { memory := nofun }
  | ret =>
    obtain ⟨w, u, hpop, rfl⟩ := execRet_next.mp h
    obtain ⟨rest, -, rfl⟩ := s.pop_ok.mp hpop
    exact { stack := nofun }
  | call =>
    obtain ⟨u, hpush, rfl⟩ := execCall_next.mp h
    obtain ⟨-, rfl⟩ := s.push_ok.mp hpush
    exact { stack := nofun }
  | cls =>
    obtain rfl := Host.Outcome.next.inj h
    exact { pixels := nofun }
  | drw =>
    obtain ⟨rows, -, rfl⟩ := execDrw_next.mp h
    exact .drawn _
  | ldDT x =>
    obtain rfl := Host.Outcome.next.inj h
    exact { delayTimer := fun other => absurd rfl (other x) }
  | ldST x =>
    obtain rfl := Host.Outcome.next.inj h
    exact { soundTimer := fun other => absurd rfl (other x) }
  | ldKey x =>
    obtain rfl := Host.Outcome.next.inj h
    exact { keyWait := fun other => absurd rfl (other x) }

/-- Settles O49: the columns of `exec_accessRow` other than the registers. -/
theorem accessMatrix : Obligations.AccessMatrix := by
  intro i s t h
  have row := exec_accessRow h
  have quiet (hw : i.writesScreen = false) : t.dirty = s.dirty := by rw [row.dirty, hw, Bool.false_or]
  have drawn (hw : i.writesScreen = true) : t.dirty = true := by rw [row.dirty, hw, Bool.true_or]
  exact ⟨row.memory, row.index, row.stack, fun hw => ⟨row.pixels hw, quiet hw⟩, drawn, row.delayTimer,
    row.soundTimer, row.keys, row.keyWait, row.draws, row.config⟩

/-- Settles O50: the column of the registers in `exec_accessRow`. -/
theorem registersChangeOnlyAsDestinations : Obligations.RegistersChangeOnlyAsDestinations :=
  fun _ _ _ z h => (exec_accessRow h).registers z

end Sys2Proof.Machine
end

section
/-! PC after an instruction that completes (R70). -/

namespace Sys2Proof.Machine

variable {s t : State}

/-- PC after a skip, as an integer, where an instruction executes (R88). -/
theorem State.skipIf_pc_toNat (hpc : s.pc.toNat ≤ Config.pcMax) (c : Bool) :
    (s.skipIf c).pc.toNat = if c then s.pc.toNat + 4 else s.pc.toNat + 2 := by
  cases c with
  | false => exact pc_add_two hpc
  | true => exact pc_add_four hpc

/-- The key that VX selects, as an entry of the list of key states (R18, R136). -/
theorem State.keyDownAt_of_keyOperand {b : Byte} {k : KeyIdx} (h : keyOperand b = .ok k) :
    s.keyDownAt k = s.key.toList.getD b.toNat false := by
  rw [← keyOperand_ok.mp h]
  simp [State.keyDownAt, List.getD_eq_getElem?_getD]

/-- PC of an instruction that completes is the one R70 gives it. -/
theorem exec_pc {i : Instr} (hpc : s.pc.toNat ≤ Config.pcMax) (h : exec i s = .next t) :
    t.pc.toNat = s.pcAfter i := by
  have skip := State.skipIf_pc_toNat hpc
  cases i with
  | cls | ldImm | addImm | ldReg | orReg | andReg | xorReg | addReg | subReg | shr | subnReg | shl | ldI | rnd
  | ldFromDT | ldDT | ldST | addI =>
    obtain rfl := Host.Outcome.next.inj h
    exact pc_add_two hpc
  | drw =>
    obtain ⟨rows, -, rfl⟩ := execDrw_next.mp h
    exact pc_add_two hpc
  | ldF =>
    obtain ⟨a, -, rfl⟩ := execLdF_next.mp h
    exact pc_add_two hpc
  | ldB =>
    obtain ⟨u, hstore, rfl⟩ := execLdB_next.mp h
    obtain ⟨-, rfl⟩ := s.storeBytes_ok.mp hstore
    exact pc_add_two hpc
  | storeRegs =>
    obtain ⟨u, hstore, rfl⟩ := execStoreRegs_next.mp h
    obtain ⟨-, rfl⟩ := s.storeBytes_ok.mp hstore
    exact pc_add_two hpc
  | loadRegs =>
    obtain ⟨bs, -, rfl⟩ := execLoadRegs_next.mp h
    rw [State.advance_eq, State.setPc_pc, State.setFirstRegs_pc]
    exact pc_add_two hpc
  | seImm | sneImm | seReg | sneReg =>
    obtain rfl := Host.Outcome.next.inj h
    simp [skip, State.pcAfter]
  | skp =>
    obtain ⟨k, hkey, rfl⟩ := execSkp_next.mp h
    rw [skip, State.keyDownAt_of_keyOperand hkey, State.pcAfter]
  | sknp x =>
    obtain ⟨k, hkey, rfl⟩ := execSknp_next.mp h
    rw [skip, State.keyDownAt_of_keyOperand hkey, State.pcAfter]
    cases s.key.toList.getD (s.reg x).toNat false <;> rfl
  | jp nnn =>
    obtain rfl := Host.Outcome.next.inj h
    exact addrOf_toNat nnn
  | jpV0 nnn =>
    obtain rfl := Host.Outcome.next.inj h
    exact offsetAddr_toNat _ nnn
  | call nnn =>
    obtain ⟨u, -, rfl⟩ := execCall_next.mp h
    exact addrOf_toNat nnn
  | ret =>
    obtain ⟨w, u, hpop, rfl⟩ := execRet_next.mp h
    obtain ⟨rest, hstack, rfl⟩ := s.pop_ok.mp hpop
    rw [State.pcAfter, hstack]
    rfl
  | ldKey =>
    obtain rfl := Host.Outcome.next.inj h
    rfl

/-- Settles O51 by `exec_pc`: 4094 is PC_MAX (R67). -/
theorem pcAfterEveryInstruction : Obligations.PcAfterEveryInstruction := fun _ _ _ => exec_pc

end Sys2Proof.Machine
end

section
/-! The state after reset (R23), and the invariant of reset and of every step. -/

namespace Sys2Proof.Machine

/-- After reset every byte is what its address holds then, whatever FONT is (R21, R23). -/
@[simp] theorem State.readByte_resetWith (c : Parameters) (a : Nat) :
    (State.resetWith c).readByte a = resetByte c.font a := rfl

@[simp] theorem State.reg_resetWith (c : Parameters) (z : RegIdx) : (State.resetWith c).reg z = 0 :=
  Vector.getElem_replicate _

/-- Settles O56, the font and the zeros above it by the laws of `resetByte`. -/
theorem resetValues : Obligations.ResetValues := by
  refine ⟨rfl, fun c => ⟨rfl, rfl, State.reg_resetWith c, rfl, rfl, rfl, pixel_clear,
    fun k => Vector.getElem_replicate _, rfl, rfl, fun a => ?font, fun a ha => ?zeros⟩⟩
  case font => rw [State.readByte_resetWith, resetByte_font]
  case zeros => rw [State.readByte_resetWith, resetByte_above ha]

/-- `init()` on the reset state gives it back (R160). -/
theorem State.init_reset : State.reset.init = State.reset := rfl

/-- Settles O53: the reset state is what `init()` gives, which meets the invariant. -/
theorem resetMeetsInvariant : Obligations.ResetMeetsInvariant := by
  rw [Obligations.ResetMeetsInvariant, ← State.init_reset]
  exact State.reset.init_inv

/-- Settles O54: a blocked step changes nothing, and each of the six effects of `exec` keeps the invariant. -/
theorem stepKeepsInvariant : Obligations.StepKeepsInvariant := fun _ _ => step_keeps_inv

end Sys2Proof.Machine
end

section
/-! The fetch and memory (R31, R33, R68): the word it reads, the bytes an instruction's step depends on, and a
store seen by the next fetch (R41). -/

namespace Sys2Proof.Machine

variable {s t : State}

/-! ### The fetched word -/

/-- The word at an address as a number: the byte there is the high one (R31). -/
theorem State.wordAt_toNat (s : State) (a : Nat) :
    (s.wordAt a).toNat = (s.readByte a).toNat * 256 + (s.readByte (a + 1)).toNat :=
  wordOfBytes_toNat _ _

/-- Settles O7 for every state and address, also where no step fetches. -/
theorem fetchIsBigEndian : Obligations.FetchIsBigEndian := State.wordAt_toNat

/-- A fetch depends on memory only through the two bytes at PC (R68). -/
theorem State.fetch_setMem {m : Memory} (high : (s.setMem m).readByte s.pc.toNat = s.readByte s.pc.toNat)
    (low : (s.setMem m).readByte (s.pc.toNat + 1) = s.readByte (s.pc.toNat + 1)) :
    (s.setMem m).fetch = s.fetch := by
  have word : (s.setMem m).wordAt s.pc.toNat = s.wordAt s.pc.toNat := by
    rw [State.wordAt, State.wordAt, high, low]
  rw [State.fetch, State.fetch, State.setMem_pc, word]

/-! ### What an instruction reads of memory -/

/-- A skip over another memory differs in memory alone. -/
theorem State.skipIf_setMem (m : Memory) (c : Bool) :
    ((s.setMem m).skipIf c).setMem (s.skipIf c).mem = s.skipIf c := by
  rw [State.skipIf_eq, State.skipIf_eq]
  rfl

/-- A store whose check passes also passes it over another memory, and differs in memory alone (R34). -/
theorem State.storeBytes_setMem {u : State} {base : Nat} {bs : List Byte} (m : Memory)
    (h : s.storeBytes base bs = .ok u) :
    ∃ u', (s.setMem m).storeBytes base bs = .ok u' ∧ u'.setMem u.mem = u := by
  obtain ⟨bound, rfl⟩ := s.storeBytes_ok.mp h
  exact ⟨_, (State.storeBytes_ok _).mpr ⟨bound, rfl⟩, rfl⟩

/-- But for `DXYN` and `FX65`, an instruction that completes does over another memory what it does over its
own, and differs in memory alone. -/
theorem exec_setMem {i : Instr} (m : Memory) (not_drw : ∀ x y n, i ≠ .drw x y n)
    (not_loadRegs : ∀ x, i ≠ .loadRegs x) (h : exec i s = .next t) :
    ∃ t', exec i (s.setMem m) = .next t' ∧ t'.setMem t.mem = t := by
  cases i with
  | drw x y n => exact absurd rfl (not_drw x y n)
  | loadRegs x => exact absurd rfl (not_loadRegs x)
  | cls | ldImm | addImm | ldReg | orReg | andReg | xorReg | addReg | subReg | shr | subnReg | shl | ldI | rnd
  | ldFromDT | ldDT | ldST | addI | jp | jpV0 | ldKey =>
    obtain rfl := Host.Outcome.next.inj h
    exact ⟨_, rfl, rfl⟩
  | seImm | sneImm | seReg | sneReg =>
    obtain rfl := Host.Outcome.next.inj h
    exact ⟨_, rfl, State.skipIf_setMem m _⟩
  | skp =>
    obtain ⟨k, hkey, rfl⟩ := execSkp_next.mp h
    exact ⟨_, execSkp_next.mpr ⟨k, hkey, rfl⟩, State.skipIf_setMem m _⟩
  | sknp =>
    obtain ⟨k, hkey, rfl⟩ := execSknp_next.mp h
    exact ⟨_, execSknp_next.mpr ⟨k, hkey, rfl⟩, State.skipIf_setMem m _⟩
  | ret =>
    obtain ⟨w, u, hpop, rfl⟩ := execRet_next.mp h
    obtain ⟨rest, hstack, rfl⟩ := s.pop_ok.mp hpop
    exact ⟨_, execRet_next.mpr ⟨w, _, (State.pop_ok _).mpr ⟨rest, hstack, rfl⟩, rfl⟩, rfl⟩
  | call =>
    obtain ⟨u, hpush, rfl⟩ := execCall_next.mp h
    obtain ⟨room, rfl⟩ := s.push_ok.mp hpush
    exact ⟨_, execCall_next.mpr ⟨_, (State.push_ok _).mpr ⟨room, rfl⟩, rfl⟩, rfl⟩
  | ldF =>
    obtain ⟨a, hglyph, rfl⟩ := execLdF_next.mp h
    exact ⟨_, execLdF_next.mpr ⟨a, hglyph, rfl⟩, rfl⟩
  | ldB =>
    obtain ⟨u, hstore, rfl⟩ := execLdB_next.mp h
    obtain ⟨u', hstore', hu⟩ := State.storeBytes_setMem m hstore
    exact ⟨_, execLdB_next.mpr ⟨u', hstore', rfl⟩, congrArg State.advance hu⟩
  | storeRegs =>
    obtain ⟨u, hstore, rfl⟩ := execStoreRegs_next.mp h
    obtain ⟨u', hstore', hu⟩ := State.storeBytes_setMem m hstore
    exact ⟨_, execStoreRegs_next.mpr ⟨u', hstore', rfl⟩, congrArg State.advance hu⟩

/-- Settles O22: both steps run the instruction of the same two bytes, and `exec_setMem` compares the two runs. -/
theorem stepReadsOnlyTheFetchedBytes : Obligations.StepReadsOnlyTheFetchedBytes := by
  intro s m i t hw high low hfetch not_drw not_loadRegs h
  rw [step_fetched hw hfetch] at h
  have hfetch' : (s.setMem m).fetch = .ok i := (State.fetch_setMem high low).trans hfetch
  rw [step_fetched (s := s.setMem m) hw hfetch']
  exact exec_setMem m not_drw not_loadRegs h

/-! ### A store and the next fetch -/

/-- `FX55` over addresses in range completes (R114). -/
theorem exec_storeRegs {x : RegIdx} (bound : s.base + x.val ≤ 4095) :
    exec (.storeRegs x) s = .next (s.writeBytes s.base (s.firstRegs x)).advance := by
  have range : inRange s.base (s.firstRegs x).length = true := by
    rw [State.firstRegs_length]
    exact (inRange_iff x.val.succ_pos).mpr bound
  exact execStoreRegs_next.mpr ⟨_, s.storeBytes_ok.mpr ⟨range, rfl⟩, rfl⟩

/-- After `FX55` the byte at I + k is Vk, for every k up to X (R114). -/
theorem State.readByte_storedRegs {x : RegIdx} (hs : s.canonical) (bound : s.base + x.val ≤ 4095) {k : RegIdx}
    (hk : k.val ≤ x.val) : (s.writeBytes s.base (s.firstRegs x)).readByte (s.base + k.val) = s.reg k := by
  have fits : s.base + (s.firstRegs x).length ≤ Config.memSize := by
    rw [State.firstRegs_length]
    exact Nat.succ_le_succ bound
  have stored : s.base ≤ s.base + k.val ∧ s.base + k.val < s.base + (s.firstRegs x).length := by
    rw [State.firstRegs_length]
    omega
  rw [State.readByte_writeBytes _ hs fits, if_pos stored, Nat.add_sub_cancel_left, State.firstRegs_getD _ _ _ hk]

/-- Settles O36: the bytes at I and I + 1, which are PC + 2 and PC + 3, are V0 and V1 after the store. -/
theorem storeSeenByNextFetch : Obligations.StoreSeenByNextFetch := by
  intro s x hs hw bound hword hx (hi : s.base = s.pc.toNat + 2)
  have bound' : s.base + x.val ≤ 4095 := by omega
  have hpc : s.pc.toNat ≤ Config.pcMax := by
    rw [Config.pcMax]
    omega
  refine ⟨_, (step_fetched hw (fetch_ok.mpr ⟨hpc, hword⟩)).trans (exec_storeRegs bound'), pc_add_two hpc, ?word⟩
  have pc_eq : (s.writeBytes s.base (s.firstRegs x)).advance.pc.toNat = s.base := (pc_add_two hpc).trans hi.symm
  have high := State.readByte_storedRegs hs bound' (k := 0) (Nat.zero_le _)
  have low := State.readByte_storedRegs hs bound' (k := 1) hx
  rw [State.wordAt_toNat, pc_eq, ← high, ← low]
  rfl

end Sys2Proof.Machine
end

section
/-! The decoder and the encoder undo each other (R51 to R54). -/

namespace Sys2Proof

variable {w : Word} {i : Instr}

/-! ### The fields of a word -/

/-- Settles O5: the six fields as numbers, for a word and for the word of two bytes. -/
theorem fieldsOfEveryWord : Obligations.FieldsOfEveryWord := by
  refine ⟨fun w => ?word, fun b0 b1 => ?bytes⟩
  case word =>
    rw [fieldsOf_c, fieldsOf_x, fieldsOf_y, fieldsOf_n, fieldsOf_nn, fieldsOf_nnn]
    omega
  case bytes =>
    have := b1.isLt
    rw [← BitVec.toNat_inj, fieldsOf_c, fieldsOf_x, fieldsOf_y, fieldsOf_n, fieldsOf_nn, fieldsOf_nnn,
      wordOfBytes_toNat]
    omega

/-! ### Decoding an encoded instruction -/

/-- The decoder reads back every instruction from the fields of its word. -/
theorem decodeFields_encode (i : Instr) : decodeFields (fieldsOf (encode i)) = some i := by
  cases i with
  | cls | ret => rfl
  | jp | call | ldI | jpV0 => simp [encode, decodeFields, fieldsOf_packA]
  | seImm | sneImm | ldImm | addImm | rnd => simp [encode, decodeFields, fieldsOf_packXI]
  | seReg | sneReg | drw => simp [encode, decodeFields, fieldsOf_packXY]
  | ldReg | orReg | andReg | xorReg | addReg | subReg | shr | subnReg | shl =>
    simp [encode, decodeFields, decodeCat8, fieldsOf_packXY]
  | skp | sknp => simp [encode, decodeFields, decodeCatE, fieldsOf_packXI]
  | ldFromDT | ldKey | ldDT | ldST | addI | ldF | ldB | storeRegs | loadRegs =>
    simp [encode, decodeFields, decodeCatF, fieldsOf_packXI]

theorem decodeWord_encode (i : Instr) : decodeWord (encode i) = .ok i :=
  decodeWord_ok.mpr (decodeFields_encode i)

/-- Two bytes at the front decide what is decoded; the rest is given back (R50). -/
theorem decodeBytes_of_decodeWord {b0 b1 : Byte} {i : Instr} (h : decodeWord (wordOfBytes b0 b1) = .ok i)
    (rest : List Byte) : decodeBytes (b0 :: b1 :: rest) = .ok (i, rest) := by
  simp only [decodeBytes, h]

/-- Settles O1: `decodeFields_encode`, and the two bytes of a word put together are the word. -/
theorem decodeOfEncode : Obligations.DecodeOfEncode := by
  intro i rest
  have word : decodeWord (wordOfBytes (hiByte (encode i)) (loByte (encode i))) = .ok i := by
    rw [wordOfBytes_hi_lo, decodeWord_encode]
  exact ⟨decodeWord_encode i, decodeBytes_of_decodeWord word rest⟩

/-- Settles O6: each word is the encoding of its instruction. -/
theorem sampleWordsDecode : Obligations.SampleWordsDecode :=
  ⟨decodeWord_encode .ret, decodeWord_encode (.jpV0 0xFFF), decodeWord_encode (.ldImm 0 0x2A),
    decodeWord_encode (.addReg 0xA 0xB), decodeWord_encode (.drw 1 2 0xF), decodeWord_encode (.loadRegs 1)⟩

/-! ### Encoding a decoded instruction -/

/-- A word is its category and its NNN packed (R51, R52). -/
theorem packA_fieldsOf {c : Nat} (hc : (fieldsOf w).c.val = c) : packA c (fieldsOf w).nnn = w := by
  subst hc
  apply BitVec.eq_of_toNat_eq
  rw [packA_toNat (Fin.isLt _), fieldsOf_c, fieldsOf_nnn]
  omega

/-- A word is its category, X and NN packed (R51, R52). -/
theorem packXI_fieldsOf {c : Nat} {nn : Byte} (hc : (fieldsOf w).c.val = c) (hnn : (fieldsOf w).nn = nn) :
    packXI c (fieldsOf w).x nn = w := by
  subst hc hnn
  apply BitVec.eq_of_toNat_eq
  rw [packXI_toNat (Fin.isLt _), fieldsOf_c, fieldsOf_x, fieldsOf_nn]
  omega

/-- A word is its category, X, Y and N packed (R51, R52). -/
theorem packXY_fieldsOf {c : Nat} {n : Fin 16} (hc : (fieldsOf w).c.val = c) (hn : (fieldsOf w).n.val = n.val) :
    packXY c (fieldsOf w).x (fieldsOf w).y n = w := by
  subst hc
  apply BitVec.eq_of_toNat_eq
  rw [packXY_toNat (Fin.isLt _), fieldsOf_c, fieldsOf_x, fieldsOf_y, ← hn, fieldsOf_n]
  omega

/-! The categories with a selector, then all: the arms of `decodeFields` are the categories in order, so category k
is the case `h_(k+1)`. In each arm that accepts, `‹_›` is the arm's own test of the selector. -/

theorem encode_of_decodeCat0 (hc : (fieldsOf w).c.val = 0) (h : decodeCat0 (fieldsOf w) = some i) :
    encode i = w := by
  have word := packA_fieldsOf hc
  unfold decodeCat0 at h
  split_ifs at h with cls ret <;> obtain rfl := Option.some.inj h
  · rw [← word, cls]; rfl
  · rw [← word, ret]; rfl

theorem encode_of_decodeCat8 (hc : (fieldsOf w).c.val = 8) (h : decodeCat8 (fieldsOf w) = some i) :
    encode i = w := by
  unfold decodeCat8 at h
  split at h
  case h_10 => cases h
  all_goals
    obtain rfl := Option.some.inj h
    exact packXY_fieldsOf hc ‹_›

theorem encode_of_decodeCatE (hc : (fieldsOf w).c.val = 0xE) (h : decodeCatE (fieldsOf w) = some i) :
    encode i = w := by
  unfold decodeCatE at h
  split_ifs at h
  all_goals
    obtain rfl := Option.some.inj h
    exact packXI_fieldsOf hc ‹_›

theorem encode_of_decodeCatF (hc : (fieldsOf w).c.val = 0xF) (h : decodeCatF (fieldsOf w) = some i) :
    encode i = w := by
  unfold decodeCatF at h
  split_ifs at h
  all_goals
    obtain rfl := Option.some.inj h
    exact packXI_fieldsOf hc ‹_›

/-- What the decoder reads from the fields of a word is encoded by that word. -/
theorem encode_of_decodeFields (h : decodeFields (fieldsOf w) = some i) : encode i = w := by
  unfold decodeFields at h
  split at h
  case h_1 hc => exact encode_of_decodeCat0 hc h
  case h_9 hc => exact encode_of_decodeCat8 hc h
  case h_15 hc => exact encode_of_decodeCatE hc h
  case h_16 hc => exact encode_of_decodeCatF hc h
  case h_17 => cases h
  case h_6 hc | h_10 hc =>
    split_ifs at h with hn
    obtain rfl := Option.some.inj h
    exact packXY_fieldsOf hc (congrArg Fin.val hn)
  all_goals obtain rfl := Option.some.inj h
  case h_2 hc | h_3 hc | h_11 hc | h_12 hc => exact packA_fieldsOf hc
  case h_4 hc | h_5 hc | h_7 hc | h_8 hc | h_13 hc => exact packXI_fieldsOf hc rfl
  case h_14 hc => exact packXY_fieldsOf hc rfl

/-- Settles O2: `encode_of_decodeFields`, for a word as the decoder is given it. -/
theorem encodeOfDecode : Obligations.EncodeOfDecode := fun _ _ h => encode_of_decodeFields (decodeWord_ok.mp h)

end Sys2Proof
end

section
/-! The decoder and the opcode map (R54): a word decodes exactly where a row admits it. -/

namespace Sys2Proof

variable {w : Word} {i : Instr}

/-- `w AND mask = match`, as the test that the model runs (R54). -/
theorem OpRow.admits_iff {r : OpRow} : r.admits w = true ↔ w &&& r.mask = r.value := beq_iff_eq

/-- The word of every instruction is admitted by the instruction's own row. -/
theorem row_admits_encode (i : Instr) : i.row.admits (encode i) = true := by
  cases i with
  | cls | ret => decide
  | jp nnn | call nnn | ldI nnn | jpV0 nnn => exact Laws.OpcodeRow.rowA (by decide) rfl nnn
  | seImm x nn | sneImm x nn | ldImm x nn | addImm x nn | rnd x nn =>
    exact Laws.OpcodeRow.rowXI (by decide) rfl x nn
  | seReg x y | ldReg x y | orReg x y | andReg x y | xorReg x y | addReg x y | subReg x y | shr x y | subnReg x y
  | shl x y | sneReg x y => exact Laws.OpcodeRow.rowXY (by decide) x y _ rfl
  | drw x y n => exact Laws.OpcodeRow.rowXYN (by decide) rfl x y n
  | skp x | sknp x | ldFromDT x | ldKey x | ldDT x | ldST x | addI x | ldF x | ldB x | storeRegs x | loadRegs x =>
    exact Laws.OpcodeRow.rowX (by decide) x _ rfl

/-- A row without a selector fixes the category (R54). -/
theorem fieldsOf_of_admits_F000 {v : Word} (h : (OpRow.mk 0xF000 v).admits w = true) :
    (fieldsOf w).c = (fieldsOf v).c := by
  rw [admits_F000] at h
  apply Fin.ext
  rw [fieldsOf_c, fieldsOf_c]
  omega

/-- A row whose selector is N fixes the category and N (R54). -/
theorem fieldsOf_of_admits_F00F {v : Word} (h : (OpRow.mk 0xF00F v).admits w = true) :
    (fieldsOf w).c = (fieldsOf v).c ∧ (fieldsOf w).n = (fieldsOf v).n := by
  rw [admits_F00F] at h
  constructor <;> apply Fin.ext
  · rw [fieldsOf_c, fieldsOf_c]
    omega
  · rw [fieldsOf_n, fieldsOf_n]
    omega

/-- A row whose selector is NN fixes the category and NN (R54). -/
theorem fieldsOf_of_admits_F0FF {v : Word} (h : (OpRow.mk 0xF0FF v).admits w = true) :
    (fieldsOf w).c = (fieldsOf v).c ∧ (fieldsOf w).nn = (fieldsOf v).nn := by
  rw [admits_F0FF] at h
  constructor
  · apply Fin.ext
    rw [fieldsOf_c, fieldsOf_c]
    omega
  · apply BitVec.eq_of_toNat_eq
    rw [fieldsOf_nn, fieldsOf_nn]
    omega

/-- A word that an instruction's row admits decodes to an instruction of that row. -/
theorem decodeFields_map_row_of_admits (h : i.row.admits w = true) :
    (decodeFields (fieldsOf w)).map Instr.row = some i.row := by
  cases i with
  | cls | ret =>
    obtain rfl := admits_FFFF.mp h
    rfl
  | jp | call | seImm | sneImm | ldImm | addImm | ldI | jpV0 | rnd | drw =>
    rw [decodeFields, fieldsOf_of_admits_F000 h]
    rfl
  | seReg | ldReg | orReg | andReg | xorReg | addReg | subReg | shr | subnReg | shl | sneReg =>
    obtain ⟨hc, hn⟩ := fieldsOf_of_admits_F00F h
    simp only [decodeFields, decodeCat8, hc, hn]
    rfl
  | skp | sknp | ldFromDT | ldKey | ldDT | ldST | addI | ldF | ldB | storeRegs | loadRegs =>
    obtain ⟨hc, hnn⟩ := fieldsOf_of_admits_F0FF h
    simp only [decodeFields, decodeCatE, decodeCatF, hc, hnn]
    rfl

/-- One instruction of each row, in the order of the opcode map. -/
def instrOfEachRow : List Instr :=
  [.cls, .ret, .jp 0, .call 0, .seImm 0 0, .sneImm 0 0, .seReg 0 0, .ldImm 0 0, .addImm 0 0, .ldReg 0 0, .orReg 0 0,
    .andReg 0 0, .xorReg 0 0, .addReg 0 0, .subReg 0 0, .shr 0 0, .subnReg 0 0, .shl 0 0, .sneReg 0 0, .ldI 0, .jpV0 0,
    .rnd 0 0, .drw 0 0 0, .skp 0, .sknp 0, .ldFromDT 0, .ldKey 0, .ldDT 0, .ldST 0, .addI 0, .ldF 0, .ldB 0,
    .storeRegs 0, .loadRegs 0]

theorem opcodeRows_eq_map_row : opcodeRows = instrOfEachRow.map Instr.row := rfl

/-- A word that a row of the map admits decodes to an instruction of that row. -/
theorem exists_decodeWord_of_admits {r : OpRow} (hr : r ∈ opcodeRows) (h : w &&& r.mask = r.value) :
    ∃ i, decodeWord w = .ok i ∧ i.row = r := by
  rw [opcodeRows_eq_map_row] at hr
  obtain ⟨i, -, rfl⟩ := List.mem_map.mp hr
  obtain ⟨j, hj, hrow⟩ := Option.map_eq_some_iff.mp (decodeFields_map_row_of_admits (OpRow.admits_iff.mpr h))
  exact ⟨j, decodeWord_ok.mpr hj, hrow⟩

/-- The row of a decoded instruction admits the word (R54). -/
theorem row_admits_of_decodeWord (h : decodeWord w = .ok i) : w &&& i.row.mask = i.row.value := by
  rw [← encode_of_decodeFields (decodeWord_ok.mp h)]
  exact OpRow.admits_iff.mp (row_admits_encode i)

/-- Settles O3. Two rows that one word matches are both the row of the instruction it decodes to. -/
theorem definedIffOneRowMatches : Obligations.DefinedIffOneRowMatches := by
  refine fun w => ⟨⟨?row_of_decoded, ?decoded_of_row⟩, ?exclusive, ?own_row⟩
  case row_of_decoded =>
    rintro ⟨i, hi⟩
    exact ⟨i.row, Laws.OpcodeRow.row_mem i, row_admits_of_decodeWord hi⟩
  case decoded_of_row =>
    rintro ⟨r, hr, h⟩
    obtain ⟨i, hi, -⟩ := exists_decodeWord_of_admits hr h
    exact ⟨i, hi⟩
  case exclusive =>
    intro r hr r' hr' h h'
    obtain ⟨i, hi, rfl⟩ := exists_decodeWord_of_admits hr h
    obtain ⟨j, hj, rfl⟩ := exists_decodeWord_of_admits hr' h'
    rw [Except.ok.inj (hi.symm.trans hj)]
  case own_row => exact fun i hi => ⟨Laws.OpcodeRow.row_mem i, row_admits_of_decodeWord hi⟩

end Sys2Proof
end

section
/-! The invalid words (R55): the classes (a) to (e), and the step that fetches one. -/

namespace Sys2Proof

/-- A selector is refused when its first test fails and the tests after it refuse it. -/
theorem ite_some_eq_none {α : Type} {p : Prop} [Decidable p] {a : α} {o : Option α} :
    (if p then some a else o) = none ↔ ¬p ∧ o = none := by
  split <;> simp [*]

theorem decodeCat0_none {f : Fields} : decodeCat0 f = none ↔ f.nnn.toNat ≠ 0x0E0 ∧ f.nnn.toNat ≠ 0x0EE := by
  simp [decodeCat0, ite_some_eq_none, ← BitVec.toNat_inj]

theorem decodeCat8_none {f : Fields} :
    decodeCat8 f = none ↔ f.n.val ∈ [8, 9, 0xA, 0xB, 0xC, 0xD, 0xF] := by
  unfold decodeCat8
  generalize f.n = n
  fin_cases n <;> simp

theorem decodeCatE_none {f : Fields} : decodeCatE f = none ↔ f.nn.toNat ∉ [0x9E, 0xA1] := by
  simp [decodeCatE, ite_some_eq_none, ← BitVec.toNat_inj]

theorem decodeCatF_none {f : Fields} :
    decodeCatF f = none ↔ f.nn.toNat ∉ [0x07, 0x0A, 0x15, 0x18, 0x1E, 0x29, 0x33, 0x55, 0x65] := by
  simp [decodeCatF, ite_some_eq_none, ← BitVec.toNat_inj]

/-- The fields that are no instruction are those of R55 (a) to (e). -/
theorem decodeFields_none {f : Fields} : decodeFields f = none ↔
    (f.c.val = 0 ∧ f.nnn.toNat ≠ 0x0E0 ∧ f.nnn.toNat ≠ 0x0EE) ∨
    (f.c.val = 5 ∧ f.n.val ≠ 0) ∨ (f.c.val = 9 ∧ f.n.val ≠ 0) ∨
    (f.c.val = 8 ∧ f.n.val ∈ [8, 9, 0xA, 0xB, 0xC, 0xD, 0xF]) ∨
    (f.c.val = 0xE ∧ f.nn.toNat ∉ [0x9E, 0xA1]) ∨
    (f.c.val = 0xF ∧ f.nn.toNat ∉ [0x07, 0x0A, 0x15, 0x18, 0x1E, 0x29, 0x33, 0x55, 0x65]) := by
  rw [← decodeCat0_none, ← decodeCat8_none, ← decodeCatE_none, ← decodeCatF_none]
  unfold decodeFields
  generalize f.c = c
  fin_cases c <;> simp

end Sys2Proof

namespace Sys2Proof.Machine

variable {s : State}

/-- A fetch of a word that does not decode is InvalidOpcode (R55, R69). -/
theorem State.fetch_of_decodeWord_error {e : DecodeError} (hpc : s.pc.toNat ≤ Config.pcMax)
    (h : decodeWord (s.wordAt s.pc.toNat) = .error e) : s.fetch = .error .invalidOpcode := by
  rw [State.fetch, if_pos hpc, h]

/-- A step that faults leaves the state as it was (R71, R144). -/
theorem apply_step_of_fault {kind : Fault} (h : step s = .fault kind) : Operation.step.apply s = s := by
  rw [Operation.apply, h]
  rfl

/-- Settles O4: the classes of R55 by `decodeFields_none`, and the step by the fetch that fails. -/
theorem invalidWordsRaiseInvalidOpcode : Obligations.InvalidWordsRaiseInvalidOpcode := by
  refine ⟨fun w => ?classes, fun w e h => (decodeWord_error.mp h).2, fun s hw hpc h => ?step⟩
  case classes =>
    rw [decodeWord_error, and_iff_left rfl, decodeFields_none, fieldsOf_c, fieldsOf_n, fieldsOf_nn, fieldsOf_nnn]
  case step =>
    have fault := step_unfetched hw (State.fetch_of_decodeWord_error hpc h)
    exact ⟨fault, apply_step_of_fault fault⟩

end Sys2Proof.Machine
end

section
/-! The step cycle (R65 to R71): what a blocked step, a fatal step and a step that executes answer, and what
the host can do to a core that waits (R156, R157). -/

namespace Sys2Proof.Machine

variable {s t u : State} {x : RegIdx} {op : Operation}

/-! ### The results of a step -/

/-- A Running core with PC above PC_MAX fetches nothing (R67, D4). -/
theorem State.fetch_of_pcMax_lt (hpc : Config.pcMax < s.pc.toNat) : s.fetch = .error .invalidOpcode :=
  if_neg (Nat.not_le.mpr hpc)

/-- A core that waits returns Blocked (R66). -/
theorem State.stepResult_of_waiting (hw : s.wait = some x) : s.stepResult = .blocked := by
  simp only [State.stepResult, hw]

/-- A step that faults returns Fatal with that kind; no core that waits faults (R66, R71). -/
theorem State.stepResult_of_fault {kind : Fault} (h : step s = .fault kind) : s.stepResult = .fatal kind := by
  cases hw : s.wait with
  | none => simp only [State.stepResult, hw, h]
  | some x => simp [step_blocked hw] at h

/-- A blocked step leaves the state as it was (R66). -/
theorem apply_step_of_waiting (hw : s.wait = some x) : Operation.step.apply s = s := by
  rw [Operation.apply, step_blocked hw]
  rfl

/-- Settles O8: PC is in range and the word decodes, so the fetch gives the instruction. -/
theorem stepRunsDecodedInstruction : Obligations.StepRunsDecodedInstruction := fun _ _ hw hpc hdecode =>
  step_fetched hw (fetch_ok.mpr ⟨hpc, hdecode⟩)

/-- Settles O10: the fetch fails, so the step faults, and a step that faults keeps the state. -/
theorem pcOutOfRangeIsFatal : Obligations.PcOutOfRangeIsFatal := fun _ hw hpc =>
  have fault := step_unfetched hw (State.fetch_of_pcMax_lt hpc)
  ⟨fault, State.stepResult_of_fault fault, apply_step_of_fault fault⟩

/-! ### Schedules -/

/-- What each operation of a schedule keeps, the schedule keeps (R157). -/
theorem runSchedule_keeps_of_mem {p : State → Prop} {ops : List Operation}
    (keeps : ∀ op ∈ ops, ∀ s, p s → p (op.apply s)) (hs : p s) : p (runSchedule ops s) := by
  induction ops generalizing s with
  | nil => exact hs
  | cons op ops ih =>
    exact ih (fun op' h => keeps op' (.tail _ h)) (keeps op (.head _) s hs)

/-- Settles O14: each of the k steps faults and leaves the state as it was, and so does the next (D10). -/
theorem fatalStepRepeats : Obligations.FatalStepRepeats := fun s kind k fault => by
  have unchanged : runSchedule (List.replicate k .step) s = s := by
    refine runSchedule_keeps_of_mem (p := (· = s)) (fun op hop t ht => ?_) rfl
    rw [List.eq_of_mem_replicate hop, ht, apply_step_of_fault fault]
  exact ⟨unchanged, by rw [unchanged, Operation.reply, State.stepResult_of_fault fault]⟩

/-! ### A core that waits -/

/-- The elements that no operation of the host but `init` and `key_down` writes while the core waits: in t
they are as in s. -/
structure SameWhileWaiting (s t : State) : Prop where
  wait : t.wait = s.wait
  pc : t.pc = s.pc
  v : t.v = s.v
  i : t.i = s.i
  stack : t.stack = s.stack
  fb : t.fb = s.fb

theorem SameWhileWaiting.refl (s : State) : SameWhileWaiting s s := ⟨rfl, rfl, rfl, rfl, rfl, rfl⟩

theorem SameWhileWaiting.trans (h : SameWhileWaiting s t) (h' : SameWhileWaiting t u) : SameWhileWaiting s u :=
  ⟨h'.wait.trans h.wait, h'.pc.trans h.pc, h'.v.trans h.v, h'.i.trans h.i, h'.stack.trans h.stack,
    h'.fb.trans h.fb⟩

/-- While the core waits, an operation other than `init` and `key_down` writes memory, timers, keys or the
redraw flag at most (R66, R149, R150, R152, R162). -/
theorem apply_sameWhileWaiting (hw : s.wait = some x) (not_init : op ≠ .init)
    (not_keyDown : ∀ c, op ≠ .keyDown c) : SameWhileWaiting s (op.apply s) := by
  cases op with
  | init => exact absurd rfl not_init
  | keyDown c => exact absurd rfl (not_keyDown c)
  | tickTimers | keyUp | clearDirty => exact ⟨rfl, rfl, rfl, rfl, rfl, rfl⟩
  | load bytes =>
    obtain h | ⟨-, h⟩ := apply_load_cases s bytes <;> rw [h]
    · exact .refl s
    · exact ⟨rfl, rfl, rfl, rfl, rfl, rfl⟩
  | step =>
    rw [apply_step_of_waiting hw]
    exact .refl s

/-- A schedule without `init` and `key_down` leaves a core that waits waiting, and touches no more of it. -/
theorem runSchedule_sameWhileWaiting {ops : List Operation} (hw : s.wait = some x) (not_init : .init ∉ ops)
    (not_keyDown : ∀ c, .keyDown c ∉ ops) : SameWhileWaiting s (runSchedule ops s) :=
  runSchedule_keeps_of_mem
    (fun _ hop _ ht => ht.trans <| apply_sameWhileWaiting (ht.wait.trans hw)
      (ne_of_mem_of_not_mem hop not_init) (fun c => ne_of_mem_of_not_mem hop (not_keyDown c)))
    (.refl s)

/-- Settles O9: the key-wait is one of the elements kept. -/
theorem blockedStepChangesNothing : Obligations.BlockedStepChangesNothing := fun _ _ hw =>
  ⟨step_blocked hw, State.stepResult_of_waiting hw, apply_step_of_waiting hw,
    fun _ not_init not_keyDown => (apply_sameWhileWaiting hw not_init not_keyDown).wait.trans hw⟩

/-- Settles O45: every operation of such a schedule keeps these elements, so the schedule does (D18). -/
theorem waitLastsUntilKeyDown : Obligations.WaitLastsUntilKeyDown := fun _ _ _ hw not_init not_keyDown =>
  have same := runSchedule_sameWhileWaiting hw not_init not_keyDown
  ⟨same.wait.trans hw, same.pc, State.reg_congr same.v, same.i, same.stack, same.fb⟩

end Sys2Proof.Machine
end

section
/-! Control transfer (R80 to R88): what each transfer and skip does to PC and to the stack, a call and the return
from it, and the jump that ends a run (R169). -/

namespace Sys2Proof.Machine

variable {s : State} {i : Instr}

/-! ### Encodings -/

/-- A word that is the number of an instruction's word decodes to it. -/
theorem decodeWord_of_decodesTo {n : Nat} {w : Word} (hw : w.toNat = n) (h : DecodesTo n i) :
    decodeWord w = .ok i := by
  rwa [DecodesTo, ← hw, BitVec.ofNat_toNat, BitVec.setWidth_eq] at h

/-- A word of category 5 or 9 whose low nibble is not 0 is no instruction (R55, R85, R86). -/
theorem decodeWord_packXY_ne_ok {c : Nat} (hc : c = 5 ∨ c = 9) (x y : RegIdx) {n : Fin 16} (hn : n ≠ 0) :
    decodeWord (packXY c x y n) ≠ .ok i := by
  have hn : n.val ≠ 0 := Fin.val_ne_zero_iff.mpr hn
  obtain ⟨category, -, -, low⟩ := fieldsOf_packXY (by omega : c < 16) x y n
  have refused : decodeFields (fieldsOf (packXY c x y n)) = none := by
    rw [decodeFields_none, category, low]
    obtain rfl | rfl := hc
    · exact .inr (.inl ⟨rfl, hn⟩)
    · exact .inr (.inr (.inl ⟨rfl, hn⟩))
  simp [decodeWord_ok, refused]

/-! ### What stays -/

theorem OnlyPc.setPc (s : State) (w : Word) : OnlyPc s (s.setPc w) :=
  ⟨fun _ => rfl, rfl, fun _ => rfl, ⟨rfl, rfl, rfl, rfl, rfl, rfl, rfl⟩, rfl, rfl⟩

theorem OnlyPc.skipIf (s : State) (c : Bool) : OnlyPc s (s.skipIf c) := by
  rw [State.skipIf_eq]
  exact .setPc s _

/-- Everything but PC and the stack is in t as in s. -/
def OnlyStackAndPc (s t : State) : Prop :=
  SameRegs s t ∧ t.i = s.i ∧ SameMemory s t ∧ t.dt = s.dt ∧ t.st = s.st ∧ SameInputs s t ∧ SameScreen s t

theorem OnlyStackAndPc.setStack_setPc (s : State) (l : List Word) (w : Word) :
    OnlyStackAndPc s ((s.setStack l).setPc w) :=
  ⟨fun _ => rfl, rfl, fun _ => rfl, rfl, rfl, ⟨rfl, rfl, rfl, rfl⟩, rfl, rfl⟩

/-! ### Jumps and skips -/

/-- Settles O16: a jump only writes PC, and NNN fits into it. -/
theorem jumpSetsPc : Obligations.JumpSetsPc := fun nnn s =>
  ⟨decodeWord_encode (.jp nnn), _, rfl, addrOf_toNat nnn, .setPc s _⟩

/-- Settles O20: the sum fits into the 16 bits of PC. -/
theorem jumpWithOffset : Obligations.JumpWithOffset := fun nnn s =>
  ⟨decodeWord_encode (.jpV0 nnn), _, rfl, offsetAddr_toNat _ nnn, .setPc s _⟩

/-- Settles O18: a skip only moves PC, to where `exec_pc` says. -/
theorem skipOnImmediate : Obligations.SkipOnImmediate := fun x nn s hpc =>
  ⟨decodeWord_encode (.seImm x nn), decodeWord_encode (.sneImm x nn),
    ⟨_, rfl, .skipIf s _, exec_pc (i := .seImm x nn) hpc rfl⟩,
    ⟨_, rfl, .skipIf s _, exec_pc (i := .sneImm x nn) hpc rfl⟩⟩

/-- Settles O19: as for the skips on an immediate, and another low nibble is no instruction. -/
theorem skipOnRegisters : Obligations.SkipOnRegisters := fun x y s hpc =>
  ⟨decodeWord_encode (.seReg x y), decodeWord_encode (.sneReg x y),
    fun _ hn _ => ⟨decodeWord_packXY_ne_ok (.inl rfl) x y hn, decodeWord_packXY_ne_ok (.inr rfl) x y hn⟩,
    ⟨_, rfl, .skipIf s _, exec_pc (i := .seReg x y) hpc rfl⟩,
    ⟨_, rfl, .skipIf s _, exec_pc (i := .sneReg x y) hpc rfl⟩⟩

/-! ### Call and return -/

/-- `00EE` goes to the top of the stack and removes it (R80). -/
theorem exec_ret_of_cons {w : Word} {rest : List Word} (h : s.stack = w :: rest) :
    exec .ret s = .next ((s.setStack rest).setPc w) :=
  execRet_next.mpr ⟨w, _, s.pop_ok.mpr ⟨rest, h, rfl⟩, rfl⟩

/-- `00EE` on an empty stack has nothing to pop (R80). -/
theorem exec_ret_of_nil (h : s.stack = []) : exec .ret s = .fault .stackUnderflow := by
  rw [exec, execRet, State.pop, h]
  rfl

/-- `2NNN` pushes PC + 2 onto a stack with room and goes to NNN (R82). -/
theorem exec_call_of_room {nnn : Addr12} (room : s.stack.length < s.config.stackCapacity) :
    exec (.call nnn) s = .next ((s.setStack ((s.pc + 2) :: s.stack)).setPc (addrOf nnn)) :=
  execCall_next.mpr ⟨_, s.push_ok.mpr ⟨room, rfl⟩, rfl⟩

/-- A return right after a call goes back to the pushed address and restores the stack (R80, R82). -/
theorem exec_ret_of_call {w target : Word} :
    exec .ret ((s.setStack (w :: s.stack)).setPc target) = .next (s.setPc w) :=
  exec_ret_of_cons rfl

/-- `2NNN` without room on the stack pushes nothing (R82). -/
theorem exec_call_of_full {nnn : Addr12} (full : s.config.stackCapacity ≤ s.stack.length) :
    exec (.call nnn) s = .fault .stackOverflow := by
  rw [exec, execCall, State.push, if_neg (Nat.not_lt.mpr full)]
  rfl

/-- Settles O15 by the two cases of the stack. -/
theorem returnPopsIntoPc : Obligations.ReturnPopsIntoPc :=
  ⟨decodeWord_encode .ret,
    fun s w rest h => ⟨_, exec_ret_of_cons h, rfl, rfl, OnlyStackAndPc.setStack_setPc s rest w⟩,
    fun _ => exec_ret_of_nil⟩

/-- Settles O17 by the two cases of the stack; PC + 2 does not wrap where an instruction executes. -/
theorem callPushesReturnAddress : Obligations.CallPushesReturnAddress := fun nnn s =>
  ⟨decodeWord_encode (.call nnn),
    fun room hpc => ⟨_, s.pc + 2, exec_call_of_room room, addrOf_toNat nnn, rfl, pc_add_two hpc,
      OnlyStackAndPc.setStack_setPc s _ _⟩,
    fun full => exec_call_of_full full.ge⟩

/-! ### Steps -/

/-- A Running core's step runs the instruction whose word is the number at PC (R65, R69). -/
theorem step_of_decodesTo {n : Nat} (hw : s.wait = none) (hpc : s.pc.toNat ≤ 4094)
    (word : (s.wordAt s.pc.toNat).toNat = n) (h : DecodesTo n i) : step s = exec i s :=
  stepRunsDecodedInstruction s i hw hpc (decodeWord_of_decodesTo word h)

/-- Settles O21. The call changes neither memory nor the key-wait, so the return at NNN is fetched from the state
after it, and pops what the call pushed. -/
theorem callThenReturnSteps : Obligations.CallThenReturnSteps := by
  intro s nnn hw hpc room target_bound call_word ret_word
  have call : step s = .next ((s.setStack ((s.pc + 2) :: s.stack)).setPc (addrOf nnn)) :=
    (step_of_decodesTo hw hpc call_word (decodeWord_encode (.call nnn))).trans (exec_call_of_room room)
  refine ⟨_, call, ?ret, rfl⟩
  rw [← addrOf_toNat nnn] at target_bound ret_word
  exact Eq.trans (step_of_decodesTo hw target_bound ret_word (decodeWord_encode .ret)) exec_ret_of_call

/-! ### The end of a run -/

/-- A jump to its own address answers the state it began in (R81). -/
theorem exec_jp_self {nnn : Addr12} (h : addrOf nnn = s.pc) : exec (.jp nnn) s = .next s := by
  rw [exec, execJp, State.jump_eq, h]
  rfl

/-- An ended program's step is the jump to its own address (R169, D25). -/
theorem step_of_ended (h : s.ended) : step s = .next s := by
  obtain ⟨hw, hpc, word, low⟩ := h
  have target : (s.pc.setWidth 12).toNat = s.pc.toNat := by
    rw [BitVec.toNat_setWidth, Nat.mod_eq_of_lt low]
  have word' : (s.wordAt s.pc.toNat).toNat = 0x1000 + (s.pc.setWidth 12).toNat := by rw [word, target]
  rw [step_of_decodesTo hw hpc word' (decodeWord_encode (.jp (s.pc.setWidth 12)))]
  exact exec_jp_self (BitVec.eq_of_toNat_eq ((addrOf_toNat _).trans target))

/-- An operation that changes nothing changes nothing any number of times. -/
theorem runSchedule_replicate_of_fixed {op : Operation} (h : op.apply s = s) (k : Nat) :
    runSchedule (List.replicate k op) s = s :=
  runSchedule_keeps_of_mem (p := (· = s))
    (fun _ hop t ht => by rw [List.eq_of_mem_replicate hop, ht, h]) rfl

/-- Settles O52: the step answers the state it began in, so k steps do. -/
theorem endedIsFixedPoint : Obligations.EndedIsFixedPoint := fun s k h =>
  have fixed : Operation.step.apply s = s := by
    rw [Operation.apply, step_of_ended h]
    rfl
  ⟨step_of_ended h, runSchedule_replicate_of_fixed fixed k⟩

end Sys2Proof.Machine
end

section
/-! The register ALU (R90 to R104): what an instruction that writes one register, or a register and VF, leaves alone,
and the values it writes as integers. -/

namespace Sys2Proof.Machine

variable {s : State} {i : Instr}

/-! ### Encodings -/

/-- The number of a category 8 word as the statements write it, the low nibble n beside the category (R52, R54). -/
theorem decodesTo_of_encode_packXY {x y : RegIdx} {n : Fin 16} (h : encode i = packXY 8 x y n) :
    DecodesTo (0x8000 + n.val + x.val * 256 + y.val * 16) i := by
  have word : BitVec.ofNat 16 (0x8000 + n.val + x.val * 256 + y.val * 16) = packXY 8 x y n :=
    congrArg (BitVec.ofNat 16) (by omega)
  rw [DecodesTo, word, ← h, decodeWord_encode]

/-! ### One write and PC + 2 -/

/-- A new register file and a new PC leave everything else alone. -/
theorem OnlyRegsAndPc.setV_setPc (s : State) (v : Vector Byte 16) (w : Word) :
    OnlyRegsAndPc s ((s.setV v).setPc w) :=
  ⟨rfl, fun _ => rfl, ⟨rfl, rfl, rfl, rfl, rfl, rfl, rfl⟩, rfl, rfl⟩

/-- t is s after `V[x] <- b` and `PC <- PC + 2`, as far as anything can read it. -/
def WritesReg (x : RegIdx) (b : Byte) (s t : State) : Prop :=
  t.reg x = b ∧ t.pc = s.pc + 2 ∧ SameRegsBut x s t ∧ OnlyRegsAndPc s t

theorem WritesReg.setReg_advance (s : State) (x : RegIdx) (b : Byte) : WritesReg x b s (s.setReg x b).advance :=
  ⟨s.reg_setReg_same x b, rfl, fun _ hz => s.reg_setReg_other hz b, .setV_setPc s _ _⟩

/-- Settles O23: both write VX alone, and a sum of bytes is an integer sum modulo 256. -/
theorem loadAndAddImmediate : Obligations.LoadAndAddImmediate := by
  intro x nn s
  obtain ⟨sum, frame⟩ := WritesReg.setReg_advance s x (s.reg x + nn)
  refine ⟨decodeWord_encode (.ldImm x nn), decodeWord_encode (.addImm x nn),
    ⟨_, rfl, WritesReg.setReg_advance s x nn⟩, _, rfl, ?_, frame⟩
  rw [sum, BitVec.toNat_add]

/-- Settles O24: all four write VX alone. -/
theorem copyAndLogic : Obligations.CopyAndLogic := fun _ _ s =>
  ⟨decodesTo_of_encode_packXY (n := 0) rfl, decodesTo_of_encode_packXY (n := 1) rfl,
    decodesTo_of_encode_packXY (n := 2) rfl, decodesTo_of_encode_packXY (n := 3) rfl,
    ⟨_, rfl, WritesReg.setReg_advance s _ _⟩, ⟨_, rfl, WritesReg.setReg_advance s _ _⟩,
    ⟨_, rfl, WritesReg.setReg_advance s _ _⟩, ⟨_, rfl, WritesReg.setReg_advance s _ _⟩⟩

/-- A masked byte has no bit that the mask lacks (R102). -/
theorem and_and_not_mask (r nn : Byte) : r &&& nn &&& ~~~nn = 0 := by
  rw [BitVec.and_assoc, BitVec.and_not_self]
  exact BitVec.and_zero

@[simp] theorem State.reg_setMasked (s : State) (x : RegIdx) (r nn : Byte) :
    (s.setMasked x r nn).reg x = r &&& nn :=
  s.reg_setReg_same x _

/-- Settles O28: the masked byte is the only write, whichever byte the source gives. -/
theorem randomByteMasked : Obligations.RandomByteMasked := by
  refine ⟨fun x nn s => ⟨decodeWord_encode (.rnd x nn), _, s.drawByte.1, rfl, rfl, ?no_other_bit, ?bound⟩,
    fun x nn r s => WritesReg.setReg_advance s x (r &&& nn)⟩
  case no_other_bit => rw [State.reg_setMasked, and_and_not_mask]
  case bound =>
    rw [State.reg_setMasked, BitVec.toNat_and]
    exact Nat.and_le_right

/-! ### A result, a flag and PC + 2 -/

/-- The flag is written last, so VF ends as the flag also when X = F (R103, D6). -/
theorem exec_of_writeThenFlag {x : RegIdx} {r f : Byte} (h : exec i s = .next (s.writeThenFlag x r f).advance) :
    ∃ t, exec i s = .next t ∧ t.reg VF = f ∧ (x ≠ VF → t.reg x = r) ∧
      t.pc = s.pc + 2 ∧ SameRegsButFlag x s t ∧ OnlyRegsAndPc s t :=
  ⟨_, h, (s.reg_writeThenFlag x VF r f).trans (if_pos rfl),
    fun hx => (s.reg_writeThenFlag x x r f).trans ((if_neg hx).trans (if_pos rfl)),
    rfl, fun _ hx hf => State.reg_writeThenFlag_other hx hf r f, .setV_setPc s _ _⟩

/-- The result is written last, so VX ends as the result also when X = F (R103, D6). -/
theorem exec_of_flagThenWrite {x : RegIdx} {r f : Byte} (h : exec i s = .next (s.flagThenWrite x r f).advance) :
    ∃ t, exec i s = .next t ∧ t.reg x = r ∧ (x ≠ VF → t.reg VF = f) ∧
      t.pc = s.pc + 2 ∧ SameRegsButFlag x s t ∧ OnlyRegsAndPc s t :=
  ⟨_, h, (s.reg_flagThenWrite x x r f).trans (if_pos rfl),
    fun hx => (s.reg_flagThenWrite x VF r f).trans ((if_neg hx.symm).trans (if_pos rfl)),
    rfl, fun _ hx hf => State.reg_flagThenWrite_other hx hf r f, .setV_setPc s _ _⟩

/-- Settles O25: the integer sum decides the carry, and modulo 256 it is the sum of bytes. -/
theorem addWithCarry : Obligations.AddWithCarry := by
  intro x y s
  obtain ⟨t, answer, flag, result, frame⟩ := exec_of_writeThenFlag (s := s) (i := .addReg x y) rfl
  refine ⟨decodesTo_of_encode_packXY (n := 4) rfl, t, answer, ?_, fun hx => ?_, frame⟩
  · rw [flag, carryFlag_toNat]
  · rw [result hx, BitVec.toNat_add]

/-- A difference of bytes is the integer difference modulo 256 (R90). -/
theorem sub_toNat_int (a b : Byte) : ((a - b).toNat : Int) = ((a.toNat : Int) - b.toNat) % 256 := by
  rw [BitVec.toNat_sub]
  omega

/-- What `8XY5` and `8XY7` have in common: VX ends as the difference of a and b, VF as no borrow (R98, R100). -/
theorem exec_of_subtraction {x : RegIdx} {a b : Byte}
    (h : exec i s = .next (s.writeThenFlag x (a - b) (noBorrowFlag a b)).advance) :
    ∃ t, exec i s = .next t ∧ (t.reg VF).toNat = (if a.toNat ≥ b.toNat then 1 else 0) ∧
      (x ≠ VF → ((t.reg x).toNat : Int) = ((a.toNat : Int) - b.toNat) % 256) ∧
      t.pc = s.pc + 2 ∧ SameRegsButFlag x s t ∧ OnlyRegsAndPc s t := by
  obtain ⟨t, answer, flag, result, frame⟩ := exec_of_writeThenFlag h
  refine ⟨t, answer, ?_, fun hx => ?_, frame⟩
  · rw [flag, noBorrowFlag_toNat]
  · rw [result hx, sub_toNat_int]

/-- Settles O26: the two instructions differ in the order of the operands only. -/
theorem subtractWithNoBorrow : Obligations.SubtractWithNoBorrow := fun x y _ =>
  ⟨decodesTo_of_encode_packXY (n := 5) rfl, decodesTo_of_encode_packXY (n := 7) rfl,
    exec_of_subtraction (i := .subReg x y) rfl, exec_of_subtraction (i := .subnReg x y) rfl⟩

/-- A shift left by one doubles modulo 256 (R101). -/
theorem shiftLeft_one_toNat (a : Byte) : (a <<< 1).toNat = 2 * a.toNat % 256 := by
  rw [BitVec.toNat_shiftLeft, Nat.shiftLeft_eq, pow_one, mul_comm]

/-- Settles O27: a shift by one halves or doubles, and the bit shifted out is what that loses. -/
theorem shiftsByOne : Obligations.ShiftsByOne := by
  intro x y s
  refine ⟨decodesTo_of_encode_packXY (n := 6) rfl, decodesTo_of_encode_packXY (n := 0xE) rfl, ?shr, ?shl⟩
  case shr =>
    obtain ⟨t, answer, result, flag, frame⟩ := exec_of_flagThenWrite (s := s) (i := .shr x y) rfl
    refine ⟨t, answer, ?_, fun hx => ?_, frame⟩
    · rw [result, BitVec.toNat_ushiftRight, Nat.shiftRight_one]
    · rw [flag hx, lowBitFlag_toNat]
  case shl =>
    obtain ⟨t, answer, result, flag, frame⟩ := exec_of_flagThenWrite (s := s) (i := .shl x y) rfl
    refine ⟨t, answer, ?_, fun hx => ?_, frame⟩
    · rw [result, shiftLeft_one_toNat]
    · rw [flag hx, highBitFlag_toNat]

end Sys2Proof.Machine
end

section
/-! The index register and memory (R110 to R116): where I goes, what a store leaves in every byte, what a load leaves
in every register, and that a store and a load undo each other. -/

namespace Sys2Proof.Machine

variable {s t : State} {i : Instr} {x : RegIdx} {base n : Nat} {bs : List Byte}

/-! ### Encodings -/

/-- The number of a category F word as the statements write it, the selector NN beside the category (R52, R54). -/
theorem decodesTo_of_encode_packXI {nn : Byte} (h : encode i = packXI 0xF x nn) :
    DecodesTo (0xF000 + nn.toNat + x.val * 256) i := by
  have word : BitVec.ofNat 16 (0xF000 + nn.toNat + x.val * 256) = packXI 0xF x nn :=
    congrArg (BitVec.ofNat 16) (by omega)
  rw [DecodesTo, word, ← h, decodeWord_encode]

/-! ### What stays -/

/-- PC moved on by 2, and everything else but I is in t as in s. -/
def WritesIndexOnly (s t : State) : Prop :=
  t.pc = s.pc + 2 ∧ SameRegs s t ∧ SameMemory s t ∧ SameControl s t ∧ SameScreen s t

theorem WritesIndexOnly.setI_advance (s : State) (w : Word) : WritesIndexOnly s (s.setI w).advance :=
  ⟨rfl, fun _ => rfl, fun _ => rfl, ⟨rfl, rfl, rfl, rfl, rfl, rfl, rfl⟩, rfl, rfl⟩

/-- PC moved on by 2, and everything else but memory is in t as in s. -/
def WritesMemoryOnly (s t : State) : Prop :=
  t.i = s.i ∧ t.pc = s.pc + 2 ∧ SameRegs s t ∧ SameControl s t ∧ SameScreen s t

theorem WritesMemoryOnly.writeBytes_advance (s : State) (base : Nat) (bs : List Byte) :
    WritesMemoryOnly s (s.writeBytes base bs).advance :=
  ⟨rfl, rfl, fun _ => rfl, ⟨rfl, rfl, rfl, rfl, rfl, rfl, rfl⟩, rfl, rfl⟩

/-! ### The index register -/

/-- Settles O29: I is the only write, and NNN fits into it. -/
theorem loadIndex : Obligations.LoadIndex := fun nnn s =>
  ⟨decodeWord_encode (.ldI nnn), _, rfl, addrOf_toNat nnn, WritesIndexOnly.setI_advance s _⟩

/-- I + VX as 16-bit words is the integer sum modulo 65536 (R111, D5). -/
theorem add_setWidth_toNat (w : Word) (b : Byte) : (w + b.setWidth 16).toNat = (w.toNat + b.toNat) % 65536 := by
  rw [BitVec.toNat_add, BitVec.toNat_setWidth_of_le (by decide)]

/-- Settles O30: I is the only write, so VF stays too. -/
theorem addToIndex : Obligations.AddToIndex := fun x s =>
  ⟨decodesTo_of_encode_packXI (nn := 0x1E) rfl, _, rfl, add_setWidth_toNat s.i (s.reg x),
    WritesIndexOnly.setI_advance s _⟩

/-- `FX29` of a digit goes to the address of its glyph, which is no read of memory (R112). -/
theorem exec_ldF_of_digit (digit : (s.reg x).toNat ≤ 0xF) :
    ∃ a : Word, exec (.ldF x) s = .next (s.setI a).advance ∧ a.toNat = 5 * (s.reg x).toNat := by
  obtain ⟨a, glyph⟩ : ∃ a, glyphAddr (s.reg x) = .ok a := ⟨_, if_pos digit⟩
  exact ⟨a, execLdF_next.mpr ⟨a, glyph, rfl⟩, (glyphAddr_ok.mp glyph).2⟩

/-- `FX29` of a larger value has no glyph: the low nibble does not stand for it (R112). -/
theorem exec_ldF_of_no_digit (large : 0xF < (s.reg x).toNat) :
    exec (.ldF x) s = .fault .invalidFontIndex := by
  rw [exec, execLdF, glyphAddr_error.mpr ⟨large, rfl⟩]
  rfl

/-- Settles O31 by the two cases of VX. -/
theorem glyphAddress : Obligations.GlyphAddress := by
  refine fun x s => ⟨decodesTo_of_encode_packXI (nn := 0x29) rfl, fun digit => ?_, exec_ldF_of_no_digit⟩
  obtain ⟨a, answer, value⟩ := exec_ldF_of_digit digit
  exact ⟨_, answer, value, WritesIndexOnly.setI_advance s a⟩

/-! ### The bounds rule for n + 1 bytes (R34, R116, D22) -/

theorem inRange_succ_iff : inRange base (n + 1) = true ↔ base + n ≤ 4095 := inRange_iff n.succ_pos

theorem inRange_succ_eq_false (far : 4095 < base + n) : inRange base (n + 1) = false := by
  rw [← Bool.not_eq_true, inRange_succ_iff]
  exact Nat.not_le.mpr far

/-- A store whose last address is above 4095 writes nothing (R34, D4). -/
theorem State.storeBytes_of_far (length : bs.length = n + 1) (far : 4095 < base + n) :
    s.storeBytes base bs = .error .invalidOpcode := by
  rw [State.storeBytes, length, inRange_succ_eq_false far]
  rfl

/-- A load whose last address is above 4095 reads nothing (R34, D4). -/
theorem State.loadBytes_of_far (far : 4095 < base + n) : s.loadBytes base (n + 1) = .error .invalidOpcode := by
  rw [State.loadBytes, inRange_succ_eq_false far]
  rfl

/-! ### Bytes after a store -/

/-- The k-th stored byte is at base + k. -/
theorem State.readByte_writeBytes_inside (hs : s.canonical) (fits : base + bs.length ≤ Config.memSize)
    (hn : n < bs.length) : (s.writeBytes base bs).readByte (base + n) = bs.getD n 0 := by
  rw [State.readByte_writeBytes s hs fits, if_pos ⟨Nat.le_add_right .., Nat.add_lt_add_left hn base⟩,
    Nat.add_sub_cancel_left]

/-- A store changes no byte before or after it (R44). -/
theorem State.readByte_writeBytes_outside (hs : s.canonical) (fits : base + bs.length ≤ Config.memSize) {a : Nat}
    (outside : a < base ∨ base + bs.length ≤ a) : (s.writeBytes base bs).readByte a = s.readByte a := by
  rw [State.readByte_writeBytes s hs fits, if_neg (by omega)]

/-! ### `FX33` -/

/-- The three digits as integers (R113). -/
theorem decimalDigits_toNat (b : Byte) :
    ((decimalDigits b).getD 0 0).toNat = b.toNat / 100 ∧ ((decimalDigits b).getD 1 0).toNat = b.toNat / 10 % 10 ∧
      ((decimalDigits b).getD 2 0).toNat = b.toNat % 10 := by
  have := b.isLt
  simp only [decimalDigits, List.getD_cons_zero, List.getD_cons_succ, BitVec.toNat_ofNat]
  omega

/-- `FX33` over addresses in range completes (R113). -/
theorem exec_ldB (bound : s.base + 2 ≤ 4095) :
    exec (.ldB x) s = .next (s.writeBytes s.base (decimalDigits (s.reg x))).advance :=
  execLdB_next.mpr ⟨_, s.storeBytes_ok.mpr ⟨inRange_succ_iff.mpr bound, rfl⟩, rfl⟩

/-- `FX33` past the last address stores no digit (R113, D22). -/
theorem exec_ldB_of_far (far : 4095 < s.base + 2) : exec (.ldB x) s = .fault .invalidOpcode := by
  rw [exec, execLdB, State.storeBytes_of_far (decimalDigits_length _) far]
  rfl

/-- Settles O32: the three stored bytes are the digits, and the store is all that changes. -/
theorem storeDecimalDigits : Obligations.StoreDecimalDigits := by
  refine fun x s => ⟨decodesTo_of_encode_packXI (nn := 0x33) rfl, fun hs bound => ?_, exec_ldB_of_far⟩
  have fits : s.base + (decimalDigits (s.reg x)).length ≤ Config.memSize := Nat.succ_le_succ bound
  have stored {k : Nat} (hk : k < 3) := State.readByte_writeBytes_inside hs fits hk
  have digits := decimalDigits_toNat (s.reg x)
  rw [← stored (k := 0) (by decide), ← stored (k := 1) (by decide), ← stored (k := 2) (by decide)] at digits
  obtain ⟨hundreds, tens, ones⟩ := digits
  exact ⟨_, exec_ldB bound, hundreds, tens, ones,
    fun _ outside => State.readByte_writeBytes_outside hs fits outside, WritesMemoryOnly.writeBytes_advance s _ _⟩

/-! ### `FX55` -/

/-- `FX55` past the last address stores no register (R114, D22). -/
theorem exec_storeRegs_of_far (far : 4095 < s.base + x.val) : exec (.storeRegs x) s = .fault .invalidOpcode := by
  rw [exec, execStoreRegs, State.storeBytes_of_far (s.firstRegs_length x) far]
  rfl

/-- `FX55` completes only over addresses in range. -/
theorem base_le_of_exec_storeRegs (h : exec (.storeRegs x) s = .next t) : s.base + x.val ≤ 4095 := by
  by_contra far
  rw [exec_storeRegs_of_far (Nat.not_le.mp far)] at h
  cases h

/-- `FX55` changes no byte before I or after I + X (R114). -/
theorem State.readByte_storedRegs_outside (hs : s.canonical) (bound : s.base + x.val ≤ 4095) {a : Nat}
    (outside : a < s.base ∨ s.base + x.val < a) :
    (s.writeBytes s.base (s.firstRegs x)).readByte a = s.readByte a := by
  have length := s.firstRegs_length x
  exact State.readByte_writeBytes_outside hs (by rw [length]; exact Nat.succ_le_succ bound)
    (by rw [length]; exact outside)

/-- Settles O33: the stored bytes are V0..VX, and the store is all that changes. -/
theorem storeRegisters : Obligations.StoreRegisters := fun _ s =>
  ⟨decodesTo_of_encode_packXI (nn := 0x55) rfl,
    fun hs bound => ⟨_, exec_storeRegs bound, fun _ hk => State.readByte_storedRegs hs bound hk,
      fun _ outside => State.readByte_storedRegs_outside hs bound outside,
      WritesMemoryOnly.writeBytes_advance s _ _⟩,
    exec_storeRegs_of_far⟩

/-! ### `FX65` -/

/-- `FX65` over addresses in range completes (R115). -/
theorem exec_loadRegs (bound : s.base + x.val ≤ 4095) :
    exec (.loadRegs x) s = .next (s.setFirstRegs (s.readBytes s.base (x.val + 1))).advance :=
  execLoadRegs_next.mpr ⟨_, s.loadBytes_ok.mpr ⟨inRange_succ_iff.mpr bound, rfl⟩, rfl⟩

/-- `FX65` past the last address loads no register (R115, D22). -/
theorem exec_loadRegs_of_far (far : 4095 < s.base + x.val) : exec (.loadRegs x) s = .fault .invalidOpcode := by
  rw [exec, execLoadRegs, State.loadBytes_of_far far]
  rfl

/-- After n + 1 bytes are loaded from base and PC moves on, Vk is the byte at base + k, for every k up to n (R115). -/
theorem State.reg_loadedRegs {k : RegIdx} (hk : k.val ≤ n) :
    (s.setFirstRegs (s.readBytes base (n + 1))).advance.reg k = s.readByte (base + k.val) := by
  have loaded : k.val < n + 1 := Nat.lt_succ_of_le hk
  rw [State.advance_eq, State.reg_setPc, State.reg_setFirstRegs, State.readBytes_length, if_pos loaded,
    State.readBytes_getD s loaded]

/-- The registers above the loaded ones stay (R115). -/
theorem State.reg_loadedRegs_above {k : RegIdx} (hk : n < k.val) :
    (s.setFirstRegs (s.readBytes base (n + 1))).advance.reg k = s.reg k := by
  rw [State.advance_eq, State.reg_setPc, State.reg_setFirstRegs, State.readBytes_length, if_neg (Nat.not_lt.mpr hk)]

/-- Settles O34: the loaded registers are the bytes, and the register file is all that changes. -/
theorem loadRegisters : Obligations.LoadRegisters := fun _ s =>
  ⟨decodesTo_of_encode_packXI (nn := 0x65) rfl,
    fun bound => ⟨_, exec_loadRegs bound, fun _ hk => State.reg_loadedRegs hk,
      fun _ hk => State.reg_loadedRegs_above hk, rfl, .setV_setPc s _ _⟩,
    exec_loadRegs_of_far⟩

/-! ### A store and a later load -/

/-- Settles O35: the load reads the addresses of the store, which hold what the store left there. -/
theorem storeThenLoadReadsBack : Obligations.StoreThenLoadReadsBack := by
  intro x s t u hs store mem config index
  have bound := base_le_of_exec_storeRegs store
  obtain rfl := Host.Outcome.next.inj ((exec_storeRegs bound).symm.trans store)
  have base_eq : u.base = s.base := congrArg BitVec.toNat index
  refine ⟨_, exec_loadRegs (base_eq ▸ bound), fun k hk => ?_, index⟩
  calc (u.setFirstRegs (u.readBytes u.base (x.val + 1))).advance.reg k
      = u.readByte (u.base + k.val) := State.reg_loadedRegs hk
    _ = u.readByte (s.base + k.val) := by rw [base_eq]
    _ = (s.writeBytes s.base (s.firstRegs x)).readByte (s.base + k.val) := State.readByte_congr mem config _
    _ = s.reg k := State.readByte_storedRegs hs bound hk

end Sys2Proof.Machine
end

section
/-! Framebuffer and sprites (R120 to R126, R152): which pixels a sprite toggles and when it collides, that drawing it
twice undoes it, and what the renderer reads and clears. -/

namespace Sys2Proof.Machine

variable {s t : State} {x y : RegIdx} {n : RowCount} {f : Framebuffer} {px : Column} {py : Row}

/-! ### The clear screen -/

/-- Settles O37: pixels, redraw flag and PC are the only writes. -/
theorem clearScreen : Obligations.ClearScreen :=
  ⟨decodeWord_encode .cls, fun _ => ⟨_, rfl, pixel_clear, rfl, rfl, fun _ => rfl, rfl, fun _ => rfl,
    ⟨rfl, rfl, rfl, rfl, rfl, rfl, rfl⟩⟩⟩

/-! ### The sprite of `DXYN` -/

/-- What `DXYN` draws over a framebuffer, and whether it collides: the N rows at I, from (VX, VY) on (R122). -/
def State.spriteOver (s : State) (x y : RegIdx) (n : RowCount) (f : Framebuffer) : Framebuffer × Bool :=
  drawSprite s.config.spriteEdge (s.reg x).toNat (s.reg y).toNat (s.readBytes s.base n.val) f

/-- A set bit of the sprite of `DXYN` lands on pixel (px, py) (R122, R123). -/
def State.drwCovers (s : State) (x y : RegIdx) (n : RowCount) (px : Column) (py : Row) : Prop :=
  s.spriteCovers s.base (s.reg x).toNat (s.reg y).toNat n.val px py

/-- The targets of the sprite of `DXYN`, one per set bit. -/
def State.drwTargets (s : State) (x y : RegIdx) (n : RowCount) : List (Column × Row) :=
  spriteTargets s.config.spriteEdge (s.reg x).toNat (s.reg y).toNat 0 (s.readBytes s.base n.val)

theorem State.drwCovers_iff : s.drwCovers x y n px py ↔ (px, py) ∈ s.drwTargets x y n :=
  spriteCovers_iff ..

/-- N is at most 15, so no two bits of the sprite share a pixel, also where they wrap. -/
theorem State.nodup_drwTargets (s : State) (x y : RegIdx) (n : RowCount) : (s.drwTargets x y n).Nodup :=
  nodup_spriteTargets _ _ _ _ _ (by rw [State.readBytes_length]; omega)

/-- A covered pixel is toggled (R122). -/
theorem State.pixel_spriteOver_of_covers (h : s.drwCovers x y n px py) :
    (s.spriteOver x y n f).1.pixel px py = !f.pixel px py := by
  have drawn := pixel_foldl_plot_nodup (s.nodup_drwTargets x y n) (f, false) px py
  rwa [decide_eq_true (State.drwCovers_iff.mp h), Bool.xor_true] at drawn

/-- A pixel that is not covered stays (R122). -/
theorem State.pixel_spriteOver_of_not_covers (h : ¬s.drwCovers x y n px py) :
    (s.spriteOver x y n f).1.pixel px py = f.pixel px py := by
  have drawn := pixel_foldl_plot_nodup (s.nodup_drwTargets x y n) (f, false) px py
  rwa [decide_eq_false (mt State.drwCovers_iff.mpr h), Bool.xor_false] at drawn

/-- The sprite collides exactly when it covers a pixel that was 1 (R124). -/
theorem State.spriteOver_collides_iff :
    (s.spriteOver x y n f).2 = true ↔ ∃ px py, s.drwCovers x y n px py ∧ f.pixel px py = true := by
  simp only [State.drwCovers_iff]
  exact (collision_foldl_plot (s.nodup_drwTargets x y n) f false).trans (by simp)

/-- Drawn over itself, a sprite restores every pixel: the covered ones are toggled twice (R126). -/
theorem State.spriteOver_spriteOver : (s.spriteOver x y n (s.spriteOver x y n f).1).1 = f := by
  refine framebuffer_ext fun px py => ?_
  by_cases h : s.drwCovers x y n px py
  · rw [State.pixel_spriteOver_of_covers h, State.pixel_spriteOver_of_covers h, Bool.not_not]
  · rw [State.pixel_spriteOver_of_not_covers h, State.pixel_spriteOver_of_not_covers h]

/-- Over a clear framebuffer a sprite collides with nothing (R124). -/
theorem State.spriteOver_clear (clear : ∀ px py, f.pixel px py = false) : (s.spriteOver x y n f).2 = false := by
  rw [← Bool.not_eq_true, State.spriteOver_collides_iff]
  simp [clear]

/-- Drawn over itself on a clear framebuffer, a sprite collides with every pixel it covers (R124, R126). -/
theorem State.spriteOver_collides_with_itself (clear : ∀ px py, f.pixel px py = false) :
    (s.spriteOver x y n (s.spriteOver x y n f).1).2 = true ↔ ∃ px py, s.drwCovers x y n px py := by
  have lit {px py} (h : s.drwCovers x y n px py) : (s.spriteOver x y n f).1.pixel px py = true := by
    rw [State.pixel_spriteOver_of_covers h, clear, Bool.not_false]
  rw [State.spriteOver_collides_iff]
  exact exists_congr fun _ => exists_congr fun _ => and_iff_left_of_imp lit

/-- A row byte that is not 0 has a set bit in one of its eight columns. -/
theorem ne_zero_iff_exists_column {b : Byte} : b ≠ 0 ↔ ∃ c < 8, b.getLsbD (7 - c) = true := by
  revert b; decide

/-- Under wrap-around no set bit is lost, so a sprite covers a pixel exactly when a row is not 0 (R123, D1). -/
theorem State.exists_drwCovers_iff_of_wrap (wrap : s.config.spriteEdge = .wrap) :
    (∃ px py, s.drwCovers x y n px py) ↔ ∃ r < n.val, s.readByte (s.base + r) ≠ 0 := by
  constructor
  · rintro ⟨px, py, r, hr, c, hc, bit, -⟩
    exact ⟨r, hr, ne_zero_iff_exists_column.mpr ⟨c, hc, bit⟩⟩
  · rintro ⟨r, hr, row⟩
    obtain ⟨c, hc, bit⟩ := ne_zero_iff_exists_column.mp row
    refine ⟨Fin.ofNat 64 ((s.reg x).toNat + c), Fin.ofNat 32 ((s.reg y).toNat + r), r, hr, c, hc, bit, ?_⟩
    rw [wrap]
    exact ⟨rfl, rfl⟩

/-! ### The instruction `DXYN` -/

theorem inRange_rows_iff {base len : Nat} : inRange base len = true ↔ len = 0 ∨ base + len - 1 ≤ 4095 := by
  obtain rfl | h := Nat.eq_zero_or_pos len
  · simp [inRange]
  · rw [inRange_iff h, or_iff_right h.ne']

/-- `DXYN` completes exactly when its rows are in range, and then draws its sprite (R122). -/
theorem exec_drw_next : exec (.drw x y n) s = .next t ↔
    (n.val = 0 ∨ s.base + n.val - 1 ≤ 4095) ∧ t = s.drawn (s.spriteOver x y n s.fb) := by
  rw [← inRange_rows_iff]
  constructor
  · intro h
    obtain ⟨rows, load, rfl⟩ := execDrw_next.mp h
    obtain ⟨range, rfl⟩ := s.loadBytes_ok.mp load
    exact ⟨range, rfl⟩
  · rintro ⟨range, rfl⟩
    exact execDrw_next.mpr ⟨_, s.loadBytes_ok.mpr ⟨range, rfl⟩, rfl⟩

/-- `DXYN` with a row past the last address draws nothing (R34, R122, D4, D22). -/
theorem exec_drw_of_far (rows : 0 < n.val) (far : 4095 < s.base + n.val - 1) :
    exec (.drw x y n) s = .fault .invalidOpcode := by
  have outside : ¬inRange s.base n.val = true := by
    rw [inRange_iff rows]
    exact Nat.not_le.mpr far
  rw [exec, execDrw, State.loadBytes, if_neg outside]
  rfl

/-- The redraw flag is set, PC moved on by 2, and everything else but the pixels and VF is in t as in s. -/
def WritesPixelsAndFlag (s t : State) : Prop :=
  t.dirty = true ∧ t.pc = s.pc + 2 ∧ SameRegsBut VF s t ∧ t.i = s.i ∧ SameMemory s t ∧ SameControl s t

theorem WritesPixelsAndFlag.drawn (s : State) (d : Framebuffer × Bool) : WritesPixelsAndFlag s (s.drawn d) :=
  ⟨rfl, rfl, fun _ hz => State.reg_setReg_other _ hz _, rfl, fun _ => rfl, rfl, rfl, rfl, rfl, rfl, rfl, rfl⟩

theorem State.reg_VF_drawn (s : State) (d : Framebuffer × Bool) : (s.drawn d).reg VF = flagByte d.2 :=
  State.reg_setReg_same _ VF _

theorem flagByte_eq_one_iff {b : Bool} : flagByte b = 1 ↔ b = true := by
  cases b <;> decide

theorem flagByte_eq_zero_iff {b : Bool} : flagByte b = 0 ↔ b = false := by
  cases b <;> decide

/-- Settles O38: the covered pixels are toggled, VF is the collision, and the frame is `WritesPixelsAndFlag`. -/
theorem drawXorsTheSprite : Obligations.DrawXorsTheSprite := by
  refine fun x y n s => ⟨decodeWord_encode (.drw x y n), fun bound => ?answer, exec_drw_of_far⟩
  refine ⟨_, exec_drw_next.mpr ⟨bound, rfl⟩,
    fun _ _ => ⟨State.pixel_spriteOver_of_covers, State.pixel_spriteOver_of_not_covers⟩,
    fun hit => ?hit, fun miss => ?miss, WritesPixelsAndFlag.drawn s _⟩
  case hit =>
    rw [State.reg_VF_drawn, flagByte_eq_one_iff]
    exact State.spriteOver_collides_iff.mpr hit
  case miss =>
    rw [State.reg_VF_drawn, flagByte_eq_zero_iff, ← Bool.not_eq_true, State.spriteOver_collides_iff]
    rintro ⟨px, py, covered, lit⟩
    exact Bool.false_ne_true ((miss px py covered).symm.trans lit)

/-! ### Drawing twice -/

/-- A draw keeps I, memory and every register but VF, so the same `DXYN` after it draws the same sprite. -/
theorem State.spriteOver_drawn (hx : x ≠ VF) (hy : y ≠ VF) (d : Framebuffer × Bool) :
    (s.drawn d).spriteOver x y n = s.spriteOver x y n := by
  obtain ⟨-, -, regs, -⟩ := WritesPixelsAndFlag.drawn s d
  funext f
  rw [State.spriteOver, regs x hx, regs y hy]
  rfl

/-- Settles O39: the second draw meets the pixels the first one left, so it undoes it and hits each of them. -/
theorem drawingTwiceRestores : Obligations.DrawingTwiceRestores := by
  intro x y n s t hx hy h
  obtain ⟨bound, rfl⟩ := exec_drw_next.mp h
  refine ⟨_, exec_drw_next.mpr ⟨bound, rfl⟩, ?_⟩
  rw [State.spriteOver_drawn hx hy]
  refine ⟨State.spriteOver_spriteOver, fun clear => ?_⟩
  have first := State.spriteOver_clear (s := s) (x := x) (y := y) (n := n) clear
  have second := State.spriteOver_collides_with_itself (s := s) (x := x) (y := y) (n := n) clear
  rw [State.reg_VF_drawn, State.reg_VF_drawn, flagByte_eq_zero_iff, flagByte_eq_one_iff]
  exact ⟨first, second, fun wrap => second.trans (State.exists_drwCovers_iff_of_wrap wrap)⟩

/-! ### The renderer -/

/-- The pixels row by row: (px, py) has index py·64 + px (R120, R152). -/
theorem State.framebuffer_getElem (s : State) {k : Nat} (hk : k < 32 * 64) (index : k = py.val * 64 + px.val) :
    s.framebuffer[k] = s.fb.pixel px py := by
  have row : k / 64 = py.val := by omega
  have column : k % 64 = px.val := by omega
  simp only [State.framebuffer, Vector.getElem_flatten, row, column, Framebuffer.pixel]

/-- A step sets the redraw flag or leaves it (R25). -/
theorem step_keeps_dirty (h : step s = .next t) (dirty : s.dirty = true) : t.dirty = true := by
  obtain ⟨-, rfl⟩ | ⟨-, i, -, hexec⟩ := step_next h
  · exact dirty
  · rw [(exec_accessRow hexec).dirty, dirty, Bool.or_true]

@[simp] theorem State.keyDown_dirty (s : State) (c : KeyIdx) : (s.keyDown c).dirty = s.dirty := by
  cases hw : s.wait with
  | none => rw [State.keyDown_running hw]; rfl
  | some x => rw [State.keyDown_waiting hw]; rfl

/-- Only `clear_dirty` and `init` take the redraw flag from true to false (R20, R152). -/
theorem apply_keeps_dirty {op : Operation} (dirty : s.dirty = true) (not_clear : op ≠ .clearDirty)
    (not_init : op ≠ .init) : (op.apply s).dirty = true := by
  cases op with
  | init => exact absurd rfl not_init
  | clearDirty => exact absurd rfl not_clear
  | tickTimers | keyUp => exact dirty
  | keyDown c => exact (s.keyDown_dirty c).trans dirty
  | load bytes =>
    obtain h | ⟨-, h⟩ := apply_load_cases s bytes <;> exact (congrArg State.dirty h).trans dirty
  | step =>
    obtain h | h := stateAfter_cases s (step s)
    · exact (congrArg State.dirty h).trans dirty
    · exact step_keeps_dirty h dirty

/-- Settles O48: the reads by their definitions and the index of a pixel, the flag operation by operation. -/
theorem renderInterface : Obligations.RenderInterface :=
  ⟨fun s => ⟨rfl, rfl, fun _ _ k index => s.framebuffer_getElem k.isLt index⟩, fun _ _ => apply_keeps_dirty⟩

end Sys2Proof.Machine
end

section
/-! Keypad and timers (R130 to R136): the skips on a key and the fault of a VX that is none, the reads and writes of
the timers, and the step that begins a key-wait. -/

namespace Sys2Proof.Machine

variable {s : State} {i : Instr} {x : RegIdx} {k : KeyIdx}

/-! ### Encodings -/

/-- The number of a category E word as the statements write it, the selector NN beside the category (R52, R54). -/
theorem decodesTo_of_encode_packXI_E {nn : Byte} (h : encode i = packXI 0xE x nn) :
    DecodesTo (0xE000 + nn.toNat + x.val * 256) i := by
  have word : BitVec.ofNat 16 (0xE000 + nn.toNat + x.val * 256) = packXI 0xE x nn :=
    congrArg (BitVec.ofNat 16) (Nat.add_right_comm ..)
  rw [DecodesTo, word, ← h, decodeWord_encode]

/-! ### The skips on a key -/

/-- `EX9E` of a key skips where it is down (R130). -/
theorem exec_skp_of_key (h : k.val = (s.reg x).toNat) :
    exec (.skp x) s = .next (s.skipIf (s.keyDownAt k)) :=
  execSkp_next.mpr ⟨k, keyOperand_ok.mpr h, rfl⟩

/-- `EXA1` of a key skips where it is up (R131). -/
theorem exec_sknp_of_key (h : k.val = (s.reg x).toNat) :
    exec (.sknp x) s = .next (s.skipIf (!s.keyDownAt k)) :=
  execSknp_next.mpr ⟨k, keyOperand_ok.mpr h, rfl⟩

/-- A larger VX is no key for either of them: the low nibble does not stand for it (R136, D4). -/
theorem exec_skp_sknp_of_no_key (large : 15 < (s.reg x).toNat) :
    exec (.skp x) s = .fault .invalidOpcode ∧ exec (.sknp x) s = .fault .invalidOpcode := by
  have no_key : keyOperand (s.reg x) = .error .invalidOpcode := keyOperand_error.mpr ⟨large, rfl⟩
  constructor <;> simp only [exec, execSkp, execSknp, no_key, raise]

/-- Settles O40 by the two cases of VX; PC after a skip is an integer sum where an instruction executes. -/
theorem skipOnKey : Obligations.SkipOnKey := by
  refine fun x s hpc => ⟨decodesTo_of_encode_packXI_E (nn := 0x9E) rfl, decodesTo_of_encode_packXI_E (nn := 0xA1) rfl,
    fun k hk => ⟨⟨_, exec_skp_of_key hk, .skipIf s _, State.skipIf_pc_toNat hpc _⟩,
      _, exec_sknp_of_key hk, .skipIf s _, ?up⟩,
    exec_skp_sknp_of_no_key⟩
  case up =>
    simp only [State.skipIf_pc_toNat hpc, Bool.not_eq_true', State.keyDownAt]

/-! ### The timers -/

/-- Settles O41: VX, DT or ST is the only write besides PC. -/
theorem timerInstructions : Obligations.TimerInstructions := fun x s =>
  ⟨decodesTo_of_encode_packXI (nn := 0x07) rfl, decodesTo_of_encode_packXI (nn := 0x15) rfl,
    decodesTo_of_encode_packXI (nn := 0x18) rfl,
    ⟨_, rfl, WritesReg.setReg_advance s x s.dt⟩,
    ⟨_, rfl, rfl, rfl, fun _ => rfl, rfl, fun _ => rfl, rfl, rfl, ⟨rfl, rfl, rfl, rfl⟩, rfl, rfl⟩,
    ⟨_, rfl, rfl, rfl, fun _ => rfl, rfl, fun _ => rfl, rfl, rfl, ⟨rfl, rfl, rfl, rfl⟩, rfl, rfl⟩⟩

/-! ### The key-wait -/

/-- `FX0A` begins a wait on VX and writes nothing else (R133). -/
theorem exec_ldKey (x : RegIdx) (s : State) : exec (.ldKey x) s = .next (s.setWait (some x)) := rfl

/-- A Running core whose step answers a next state returns Executed (R72). -/
theorem State.stepResult_of_next {t : State} (hw : s.wait = none) (h : step s = .next t) :
    s.stepResult = .executed := by
  simp only [State.stepResult, hw, h]

/-- A step that answers a next state goes there. -/
theorem apply_step_of_next {t : State} (h : step s = .next t) : Operation.step.apply s = t := by
  rw [Operation.apply, h]
  rfl

/-- Settles O42: the key-wait is the only write, and the core that the step leaves waits. -/
theorem waitForKey : Obligations.WaitForKey := by
  refine fun x s => ⟨decodesTo_of_encode_packXI (nn := 0x0A) rfl,
    ⟨_, exec_ldKey x s, rfl, rfl, fun _ => rfl, rfl, fun _ => rfl, rfl, rfl, rfl, rfl, rfl, rfl, rfl, rfl⟩,
    fun hw hpc fetched => ?steps⟩
  have wait : step s = .next (s.setWait (some x)) := stepRunsDecodedInstruction s _ hw hpc fetched
  refine ⟨State.stepResult_of_next hw wait, ?_⟩
  rw [apply_step_of_next wait]
  exact State.stepResult_of_waiting rfl

end Sys2Proof.Machine
end

section
/-! The causes of a fatal step (R140 to R143): the one check of each instruction decides between a next state and a
fault of that check's kind, and the fetch before it can only be InvalidOpcode. -/

namespace Sys2Proof.Machine

variable {s : State} {i : Instr} {kind : Fault} {r : Result} {check : Option Fault}

/-! ### The check of an instruction and its answer -/

/-- A result is the answer of an instruction whose check is given: the fault of a failing check, else a next state. -/
def AnswersCheck : Option Fault → Result → Prop
  | none, r => ∃ t, r = .next t
  | some kind, r => r = .fault kind

/-- The answer to a check of one condition, by its two cases. -/
theorem AnswersCheck.ite {p : Prop} [Decidable p] (fails : p → r = .fault kind) (passes : ¬p → ∃ t, r = .next t) :
    AnswersCheck (if p then some kind else none) r := by
  split
  · exact fails ‹p›
  · exact passes ‹¬p›

theorem AnswersCheck.completes (h : AnswersCheck check r) (passes : check = none) : ∃ t, r = .next t := by
  rwa [passes] at h

theorem AnswersCheck.fault_iff (h : AnswersCheck check r) : r = .fault kind ↔ check = some kind := by
  cases check with
  | none =>
    obtain ⟨t, rfl⟩ := h
    simp
  | some kind' =>
    obtain rfl : r = .fault kind' := h
    simp

theorem AnswersCheck.ne_refused (h : AnswersCheck check r) (why : Refusal) : r ≠ .refused why := by
  cases check with
  | none =>
    obtain ⟨t, rfl⟩ := h
    nofun
  | some kind =>
    obtain rfl : r = .fault kind := h
    nofun

/-- A value of VX up to 15 is a key (R136). -/
theorem exists_keyOperand {b : Byte} (small : ¬15 < b.toNat) : ∃ k : KeyIdx, k.val = b.toNat :=
  ⟨⟨b.toNat, by omega⟩, rfl⟩

/-- Every instruction answers its one check (R141, R143). -/
theorem exec_answersCheck (i : Instr) (s : State) : AnswersCheck (s.instrFault i) (exec i s) := by
  cases i with
  | ret =>
    refine .ite (fun empty => exec_ret_of_nil (List.length_eq_zero_iff.mp empty)) fun nonempty => ?_
    obtain ⟨w, rest, stack⟩ := List.exists_cons_of_length_pos (Nat.pos_of_ne_zero nonempty)
    exact ⟨_, exec_ret_of_cons stack⟩
  | call => exact .ite exec_call_of_full fun room => ⟨_, exec_call_of_room (Nat.not_le.mp room)⟩
  | drw =>
    refine .ite (fun outside => exec_drw_of_far outside.1 outside.2) fun inside => ?_
    exact ⟨_, exec_drw_next.mpr ⟨by rw [State.base]; omega, rfl⟩⟩
  | skp =>
    refine .ite (fun large => (exec_skp_sknp_of_no_key large).1) fun small => ?_
    obtain ⟨k, hk⟩ := exists_keyOperand small
    exact ⟨_, exec_skp_of_key hk⟩
  | sknp =>
    refine .ite (fun large => (exec_skp_sknp_of_no_key large).2) fun small => ?_
    obtain ⟨k, hk⟩ := exists_keyOperand small
    exact ⟨_, exec_sknp_of_key hk⟩
  | ldF =>
    refine .ite exec_ldF_of_no_digit fun digit => ?_
    obtain ⟨a, answer, -⟩ := exec_ldF_of_digit (Nat.not_lt.mp digit)
    exact ⟨_, answer⟩
  | ldB => exact .ite exec_ldB_of_far fun near => ⟨_, exec_ldB (Nat.not_lt.mp near)⟩
  | storeRegs => exact .ite exec_storeRegs_of_far fun near => ⟨_, exec_storeRegs (Nat.not_lt.mp near)⟩
  | loadRegs => exact .ite exec_loadRegs_of_far fun near => ⟨_, exec_loadRegs (Nat.not_lt.mp near)⟩
  | cls | jp | seImm | sneImm | seReg | ldImm | addImm | ldReg | orReg | andReg | xorReg | addReg | subReg | shr
  | subnReg | shl | sneReg | ldI | jpV0 | rnd | ldFromDT | ldKey | ldDT | ldST | addI => exact ⟨_, rfl⟩

theorem exec_fault_iff : exec i s = .fault kind ↔ s.instrFault i = some kind :=
  (exec_answersCheck i s).fault_iff

/-- Settles O11: `exec_answersCheck` says both halves (D4, D22). -/
theorem completesUnlessItsCheckFails : Obligations.CompletesUnlessItsCheckFails := fun i s =>
  ⟨(exec_answersCheck i s).completes, fun _ => exec_fault_iff⟩

/-! ### The fault of a step -/

/-- The two ways a fetch fails, PC first (R67, R69, R143). -/
theorem State.fetch_error_iff : s.fetch = .error kind ↔
    (4094 < s.pc.toNat ∧ kind = .invalidOpcode) ∨
    (s.pc.toNat ≤ 4094 ∧ (∀ i, decodeWord (s.wordAt s.pc.toNat) ≠ .ok i) ∧ kind = .invalidOpcode) := by
  constructor
  · intro h
    obtain rfl := fetch_error h
    obtain near | far := le_or_gt s.pc.toNat 4094
    · refine .inr ⟨near, fun i decoded => ?_, rfl⟩
      simp [fetch_ok.mpr ⟨near, decoded⟩] at h
    · exact .inl ⟨far, rfl⟩
  · rintro (⟨far, rfl⟩ | ⟨near, undefined, rfl⟩)
    · exact State.fetch_of_pcMax_lt far
    · cases decoded : decodeWord (s.wordAt s.pc.toNat) with
      | ok i => exact absurd decoded (undefined i)
      | error e => exact State.fetch_of_decodeWord_error near decoded

/-- A step faults where the core is Running and the fetch fails or the fetched instruction faults (R65, R69). -/
theorem step_fault_iff : step s = .fault kind ↔
    s.wait = none ∧ (s.fetch = .error kind ∨ ∃ i, s.fetch = .ok i ∧ exec i s = .fault kind) := by
  cases hw : s.wait with
  | some x => simp [step_blocked hw]
  | none =>
    cases hf : s.fetch with
    | ok i => simp [step_fetched hw hf]
    | error kind' => simp [step_unfetched hw hf]

/-- Settles O12: the fetch's two failures, then the check of the instruction it gives (D4). -/
theorem causesOfFatalSteps : Obligations.CausesOfFatalSteps := by
  intro s kind
  rw [step_fault_iff, State.fetch_error_iff]
  simp only [fetch_ok, exec_fault_iff, and_assoc, exists_and_left, or_assoc]
  rfl

/-! ### The kinds -/

/-- No check of an instruction has the kind of `load` (R140). -/
theorem instrFault_ne_programTooLarge (s : State) (i : Instr) : s.instrFault i ≠ some .programTooLarge := by
  cases i <;> simp [State.instrFault]

/-- No step raises ProgramTooLarge (R140). -/
theorem step_ne_programTooLarge (s : State) : step s ≠ .fault .programTooLarge := by
  rw [Ne, step_fault_iff]
  rintro ⟨-, unfetched | ⟨i, -, fault⟩⟩
  · exact Fault.noConfusion (fetch_error unfetched)
  · exact instrFault_ne_programTooLarge s i (exec_fault_iff.mp fault)

/-- No step is refused: every instruction has a meaning. -/
theorem step_ne_refused (s : State) (why : Refusal) : step s ≠ .refused why := by
  cases hw : s.wait with
  | some x => simp [step_blocked hw]
  | none =>
    cases hf : s.fetch with
    | ok i =>
      rw [step_fetched hw hf]
      exact (exec_answersCheck i s).ne_refused why
    | error kind => simp [step_unfetched hw hf]

theorem State.stepResult_ne_refused (s : State) (why : Refusal) : s.stepResult ≠ .refused why := by
  cases hw : s.wait with
  | some x => simp [State.stepResult_of_waiting hw]
  | none =>
    cases answer : step s with
    | next t => simp [State.stepResult_of_next hw answer]
    | fault kind => simp [State.stepResult_of_fault answer]
    | refused why' => exact absurd answer (step_ne_refused s why')

/-- A `load` that fails returns ProgramTooLarge (R163). -/
theorem State.loadProgram_error {bytes : List Byte} (h : s.loadProgram bytes = .error kind) :
    kind = .programTooLarge := by
  unfold State.loadProgram at h
  split at h
  · cases h
  · exact (Except.error.inj h).symm

/-- Settles O13: the kinds constructor by constructor, the rest by the lemmas on steps and on `load`. -/
theorem kindsOfStepAndLoad : Obligations.KindsOfStepAndLoad :=
  ⟨fun kind => by cases kind <;> decide,
    fun s why => ⟨step_ne_refused s why, s.stepResult_ne_refused why⟩,
    step_ne_programTooLarge, fun _ _ _ => State.loadProgram_error⟩

end Sys2Proof.Machine
end

section
/-! Timers and key events (R148 to R151): where ticks take the timers, how long the sound lasts, and what `key_down`
and `key_up` write. -/

namespace Sys2Proof.Machine

variable {s : State} {x : RegIdx}

/-! ### Ticks -/

/-- A tick takes a timer one down, to a floor of 0 (R150). -/
theorem tickDown_toNat (b : Byte) : (tickDown b).toNat = b.toNat - 1 := by
  unfold tickDown
  split
  · exact BitVec.toNat_sub_of_le (BitVec.le_def.mpr ‹_›)
  · omega

/-- k ticks take a timer k down, to a floor of 0 (R150). -/
theorem iterate_tickDown_toNat (k : Nat) (b : Byte) : (tickDown^[k] b).toNat = b.toNat - k := by
  induction k with
  | zero => rfl
  | succ k ih => rw [Function.iterate_succ_apply', tickDown_toNat, ih, Nat.sub_sub]

/-- k calls of `tick_timers` tick each timer k times and write nothing else (R150, D18). -/
theorem runSchedule_tickTimers (k : Nat) (s : State) :
    runSchedule (List.replicate k .tickTimers) s = (s.setDt (tickDown^[k] s.dt)).setSt (tickDown^[k] s.st) := by
  induction k generalizing s with
  | zero => rfl
  | succ k ih => exact ih s.tickTimers

/-- The sound is active exactly while ST is above 0 (R151). -/
theorem State.isSoundActive_iff : s.isSoundActive = true ↔ s.st.toNat > 0 := decide_eq_true_iff

/-- The sound lasts for as many ticks as ST holds (R150, R151). -/
theorem isSoundActive_after_ticks (k : Nat) (s : State) :
    (runSchedule (List.replicate k .tickTimers) s).isSoundActive = true ↔ k < s.st.toNat := by
  rw [runSchedule_tickTimers, State.isSoundActive_iff, State.setSt_st, iterate_tickDown_toNat]
  exact Nat.sub_pos_iff_lt

/-- Settles O46: `runSchedule_tickTimers` gives the state after k ticks, of which only the timers differ. -/
theorem ticksCountDownToZero : Obligations.TicksCountDownToZero := by
  refine fun k s => ⟨?dt, ?st, isSoundActive_after_ticks k s, ?rest⟩ <;> rw [runSchedule_tickTimers]
  case dt => exact iterate_tickDown_toNat k s.dt
  case st => exact iterate_tickDown_toNat k s.st
  case rest => rfl

/-- Settles O47: `FX18` leaves VX in ST, which is how many ticks the sound lasts. -/
theorem soundIsActiveWhileStPositive : Obligations.SoundIsActiveWhileStPositive := by
  refine ⟨fun _ => State.isSoundActive_iff, fun x s t k h => ?_⟩
  obtain rfl : (s.setSt (s.reg x)).advance = t := Host.Outcome.next.inj h
  exact isSoundActive_after_ticks k _

/-! ### Key events -/

/-- A key event writes its own key and no other (R148, R149). -/
theorem State.key_setKeyAt (s : State) (c k : KeyIdx) (down : Bool) :
    (s.setKeyAt c down).key[k.val] = if k = c then down else s.key[k.val] := by
  simp only [State.setKeyAt, State.setKey_key, Vector.getElem_set, Fin.ext_iff, eq_comm (a := k.val)]

/-- `key_down` makes its key down in either state of the core (R148, D16). -/
theorem State.keyDown_key (s : State) (c : KeyIdx) : (s.keyDown c).key = (s.setKeyAt c true).key := by
  cases hw : s.wait with
  | none => rw [State.keyDown_running hw]
  | some x => rw [State.keyDown_waiting hw]; rfl

/-- The register that waits gets the code of the key, and no other register changes (R148). -/
theorem State.reg_keyDown_waiting (hw : s.wait = some x) (c : KeyIdx) (z : RegIdx) :
    (s.keyDown c).reg z = if z = x then BitVec.ofNat 8 c.val else s.reg z := by
  rw [State.keyDown_waiting hw]
  exact State.reg_setReg ..

/-- A key code fits into a register. -/
theorem keyCode_toNat (c : KeyIdx) : (BitVec.ofNat 8 c.val).toNat = c.val := by
  rw [BitVec.toNat_ofNat]
  omega

/-- Settles O43: the two cases of the key-wait, as `keyDown_running` and `keyDown_waiting` say (D7, D16). -/
theorem keyDownEvent : Obligations.KeyDownEvent := by
  refine fun c s => ⟨fun k => ?keys, fun hw => ?running, fun x hw => ⟨?code, ?pc, ?wait, fun z hz => ?others, ?rest⟩⟩
  case keys => simp only [State.keyDown_key, State.key_setKeyAt]
  case running => rw [State.keyDown_running hw]; rfl
  case code => rw [State.reg_keyDown_waiting hw, if_pos rfl, keyCode_toNat]
  case others => rw [State.reg_keyDown_waiting hw, if_neg hz]
  all_goals rw [State.keyDown_waiting hw]; rfl

/-- Settles O44: `key_up` is the write of its key. -/
theorem keyUpEvent : Obligations.KeyUpEvent := fun c s => ⟨fun k => s.key_setKeyAt c k false, rfl⟩

end Sys2Proof.Machine
end

section
/-! `init` and `load` (R160 to R163): the reset of the machine, and the two outcomes of a load. -/

namespace Sys2Proof.Machine

variable {s t : State} {bytes : List Byte} {kind : Fault}

/-! ### `init` -/

/-- Settles O57: `init` is `State.init`, which does not look at the key-wait. -/
theorem initIsReset : Obligations.InitIsReset := fun _ => ⟨rfl, rfl⟩

/-! ### The two outcomes of `load` -/

/-- A load is accepted exactly when the program fits, and writes it from 0x200 on (R162, R163). -/
theorem State.loadProgram_ok :
    s.loadProgram bytes = .ok t ↔ bytes.length ≤ Config.progMaxLen ∧ t = s.writeBytes Config.progBase bytes := by
  unfold State.loadProgram
  split
  case isTrue fits => simp [fits, eq_comm]
  case isFalse tooLong => simp [tooLong]

/-- A program that is too long is rejected (R163). -/
theorem State.loadProgram_of_tooLong (tooLong : Config.progMaxLen < bytes.length) :
    s.loadProgram bytes = .error .programTooLarge :=
  if_neg (Nat.not_le.mpr tooLong)

theorem Operation.reply_load_of_ok (h : s.loadProgram bytes = .ok t) : (Operation.load bytes).reply s = .ok := by
  simp only [Operation.reply, h]

theorem Operation.reply_load_of_error (h : s.loadProgram bytes = .error kind) :
    (Operation.load bytes).reply s = .loadFailed kind := by
  simp only [Operation.reply, h]

/-- A rejected load leaves the state as it was (R163). -/
theorem Operation.apply_load_of_error (h : s.loadProgram bytes = .error kind) :
    (Operation.load bytes).apply s = s := by
  simp only [Operation.apply, h]

/-- Settles O58: an accepted load is the write of the program at 0x200, which ends inside the memory. -/
theorem loadCopiesTheProgram : Obligations.LoadCopiesTheProgram := by
  intro s bytes hs (fits : bytes.length ≤ Config.progMaxLen)
  have loaded : s.loadProgram bytes = .ok (s.writeBytes Config.progBase bytes) :=
    State.loadProgram_ok.mpr ⟨fits, rfl⟩
  have inMemory : Config.progBase + bytes.length ≤ Config.memSize := Nat.add_le_add_left fits Config.progBase
  exact ⟨s.writeBytes Config.progBase bytes, loaded, Operation.reply_load_of_ok loaded,
    fun _ => State.readByte_writeBytes_inside hs inMemory,
    fun _ => State.readByte_writeBytes_outside hs inMemory, s.writeBytes_eq _ _⟩

/-- Settles O59: a rejected load changes nothing, and 3584 bytes are the longest accepted program. -/
theorem loadTooLongChangesNothing : Obligations.LoadTooLongChangesNothing := by
  refine fun s bytes => ⟨fun tooLong => ?rejected, fun fits => ?accepted, fun ⟨_, loaded⟩ => ?bound⟩
  case rejected =>
    have failed : s.loadProgram bytes = .error .programTooLarge := State.loadProgram_of_tooLong tooLong
    exact ⟨failed, Operation.reply_load_of_error failed, Operation.apply_load_of_error failed⟩
  case accepted => exact ⟨_, State.loadProgram_ok.mpr ⟨fits, rfl⟩⟩
  case bound => exact (State.loadProgram_ok.mp loaded).1

end Sys2Proof.Machine
end
